-- ==== Sys2Proof/Config.lean ====
section
/-! DEFINITION. What is fixed for every run (spec/00_scope.md rule R8), and the one free value of the model.

The per-launch and per-engine parameters of rule R8 are state (Machine/State.lean) and arguments of a launch
(Machine/Launch.lean). `OVF` is `wrap` (decision D1) and `DIVMODE` is `trunc` (decision D3): they are built into
`wrap`, `tdiv` and `trem` (Machine/Ops.lean, Decode.lean); assumption log 13. `LINK_DEPTH` is unbounded (R7): a link
queue is a list. `FIRST_FAULT` is an argument of the result read-out (log 14). -/

namespace Sys2Proof

/-- `XLEN`, the width of a word (R4, decision D1; log 1). -/
abbrev Config.XLEN : Nat := 64

/-- The largest `MEM_SIZE` a launch may have, 2^(XLEN-1) - 4 (R5, decision D2). -/
abbrev Config.maxMemSize : Nat := 2 ^ (Config.XLEN - 1) - 4

/-- DESIGN CHOICE (log 4), safe: a FREE VALUE. Rule R191 of spec/60_exceptions.md leaves open which engine steps next;
when the state's list of choices is used up, the k-th choice is `freeChoice k`, of which nothing is known. -/
opaque Config.freeChoice : Nat → Nat

end Sys2Proof
end

