-- ==== Sys2Proof/Word.lean ====
section
/-! DEFINITION. The machine word (spec/00_scope.md rules R4, R9). -/

namespace Sys2Proof

/-- One word: `XLEN` bits, read as a two's-complement signed integer by `BitVec.toInt` (R4; log 1). -/
abbrev Word : Type := BitVec Config.XLEN

end Sys2Proof
end

