-- ==== Sys2Proof/Syntax.lean ====
section
/-! DEFINITION. The instructions, one constructor per row of spec/opcode_table.json, and the decoded fields of an
instruction word (spec/30_encoding.md). -/

namespace Sys2Proof

/-- The two addressing modes that have a meaning (R85). -/
inductive Mode where
  /-- Mode digit 0: the operand word is an address to read through. -/
  | position
  /-- Mode digit 1: the operand word is the value. -/
  | immediate
deriving DecidableEq, Repr

/-- A source operand with its addressing mode (R85): the word is an address to read through, or the value itself. -/
inductive Src where
  /-- Mode digit 0, position. -/
  | pos (p : Word)
  /-- Mode digit 1, immediate. -/
  | imm (p : Word)
deriving DecidableEq, Repr

/-- The instructions (R91). A destination operand is a raw address (R86). -/
inductive Instr where
  /-- ADD, opcode 1 (R100). -/
  | add (a b : Src) (dst : Word)
  /-- MUL, opcode 2 (R101). -/
  | mul (a b : Src) (dst : Word)
  /-- IN, opcode 3 (R110). -/
  | input (dst : Word)
  /-- OUT, opcode 4 (R111). -/
  | output (a : Src)
  /-- JNZ, opcode 5 (R140). -/
  | jnz (a target : Src)
  /-- JZ, opcode 6 (R141). -/
  | jz (a target : Src)
  /-- LT, opcode 7 (R150). -/
  | lt (a b : Src) (dst : Word)
  /-- EQ, opcode 8 (R151). -/
  | eq (a b : Src) (dst : Word)
  /-- HLT, opcode 99 (R160). -/
  | hlt
deriving DecidableEq, Repr

/-- The nine valid opcodes (R91). -/
inductive Opcode where
  | add | mul | input | output | jnz | jz | lt | eq | hlt
deriving DecidableEq, Repr

/-- What decoding one instruction word gives: the opcode field and three mode fields, whatever their values (R81).
It is never state (spec/10_state.md R32). -/
structure Fields where
  opcode : Int
  mode0 : Int
  mode1 : Int
  mode2 : Int
deriving DecidableEq, Repr

/-- Why a run of words is no instruction. The engine turns each into a fault (`FaultKind.ofReject`). -/
inductive Reject where
  /-- The opcode field is not in 1 .. 8 or 99 (R87). -/
  | invalidOpcode
  /-- A consulted mode digit is not 0 or 1 (R88). -/
  | reservedMode
  /-- The words end before the instruction's last operand word (R93, R94). -/
  | truncated
deriving DecidableEq, Repr

end Sys2Proof
end

