-- ==== Sys2Proof/WellFormed.lean ====
section
/-! DEFINITION. Well-formedness of the decoded fields of an instruction word: the two checks that dispatch makes
before it fetches an operand word (spec/30_encoding.md R87, R88, steps 3 and 4 of R92). A term of `Instr` has passed
both: it has no raw field left, so every term of `Instr` can be encoded and run. What a launch must satisfy is
checked in Machine/Launch.lean. -/

namespace Sys2Proof

/-- The opcode numbers of R91. -/
def Opcode.code : Opcode → Nat
  | .add => 1
  | .mul => 2
  | .input => 3
  | .output => 4
  | .jnz => 5
  | .jz => 6
  | .lt => 7
  | .eq => 8
  | .hlt => 99

/-- The nine opcodes. -/
def Opcode.all : List Opcode :=
  [.add, .mul, .input, .output, .jnz, .jz, .lt, .eq, .hlt]

/-- How many source operands an opcode has, hence how many mode digits dispatch consults, from `mode0` on (R83, R88). -/
def Opcode.sources : Opcode → Nat
  | .add | .mul | .lt | .eq | .jnz | .jz => 2
  | .output => 1
  | .input | .hlt => 0

/-- How many operand words an opcode has (R83). -/
def Opcode.operands : Opcode → Nat
  | .add | .mul | .lt | .eq => 3
  | .jnz | .jz => 2
  | .input | .output => 1
  | .hlt => 0

/-- First check (R87): the opcode field is one of the nine. -/
def Fields.opcodeOk (f : Fields) : Bool :=
  Opcode.all.any fun o => f.opcode = o.code

/-- Is this mode digit one of the two that have a meaning (R85)? -/
def modeOk (m : Int) : Bool :=
  m = 0 || m = 1

/-- Second check (R88): every mode digit the opcode consults is 0 or 1; ignored digits are not checked (R86). -/
def Fields.modesOk (f : Fields) : Bool :=
  Opcode.all.all fun o => f.opcode ≠ o.code
    || ((o.sources < 1 || modeOk f.mode0) && (o.sources < 2 || modeOk f.mode1))

/-- Both checks. -/
def Fields.wellFormed (f : Fields) : Bool :=
  f.opcodeOk && f.modesOk

/-- The opcode of an instruction. -/
def Instr.opcode : Instr → Opcode
  | .add .. => .add
  | .mul .. => .mul
  | .input .. => .input
  | .output .. => .output
  | .jnz .. => .jnz
  | .jz .. => .jz
  | .lt .. => .lt
  | .eq .. => .eq
  | .hlt => .hlt

end Sys2Proof
end

