-- ==== Sys2Proof/Decode.lean ====
section
/-! DEFINITION. The decoder, total on any list of words (spec/30_encoding.md R80 to R94), and after it the encoder.

Encodings are decimal: a field is a digit of the instruction word, taken by division and remainder (R81). -/

namespace Sys2Proof

/-- Division rounding toward zero (spec/00_scope.md R9, decision D3). -/
def tdiv (a b : Int) : Int := a.tdiv b

/-- The matching remainder: it has the sign of `a`, or is zero (R9). -/
def trem (a b : Int) : Int := a.tmod b

/-- `Decode` of R81: the four decimal fields of an instruction word. It cannot fail (R90). -/
def decodeFields (w : Word) : Fields where
  opcode := trem w.toInt 100
  mode0 := trem (tdiv w.toInt 100) 10
  mode1 := trem (tdiv w.toInt 1000) 10
  mode2 := tdiv w.toInt 10000

/-- The opcode that an opcode field selects, if any (R87, R91). -/
def Opcode.ofInt? (z : Int) : Option Opcode :=
  Opcode.all.find? fun o => z = o.code

/-- The mode that a digit selects; none for the reserved digits (R85, R88). -/
def Mode.ofDigit? (m : Int) : Option Mode :=
  if m = 0 then some .position else if m = 1 then some .immediate else none

/-- A source operand from its mode and its operand word (R85). -/
def Mode.src : Mode → Word → Src
  | .position, p => .pos p
  | .immediate, p => .imm p

/-- Format F3 (R83): two sources and a destination. The modes are checked before any operand word is looked at (R92). -/
def decodeF3 (mk : Src → Src → Word → Instr) (f : Fields) (ps : List Word) : Except Reject (Instr × List Word) :=
  match Mode.ofDigit? f.mode0, Mode.ofDigit? f.mode1 with
  | some m, some n =>
    match ps with
    | p0 :: p1 :: p2 :: rest => .ok (mk (m.src p0) (n.src p1) p2, rest)
    | _ => .error .truncated
  | _, _ => .error .reservedMode

/-- Format F1D (R83): one destination, whose mode digit is ignored (R86). -/
def decodeF1D (mk : Word → Instr) (ps : List Word) : Except Reject (Instr × List Word) :=
  match ps with
  | p0 :: rest => .ok (mk p0, rest)
  | [] => .error .truncated

/-- Format F1S (R83): one source. -/
def decodeF1S (mk : Src → Instr) (f : Fields) (ps : List Word) : Except Reject (Instr × List Word) :=
  match Mode.ofDigit? f.mode0 with
  | some m =>
    match ps with
    | p0 :: rest => .ok (mk (m.src p0), rest)
    | [] => .error .truncated
  | none => .error .reservedMode

/-- Format F2J (R83): two sources. Both modes are checked, whether or not the jump is taken (R88). -/
def decodeF2J (mk : Src → Src → Instr) (f : Fields) (ps : List Word) : Except Reject (Instr × List Word) :=
  match Mode.ofDigit? f.mode0, Mode.ofDigit? f.mode1 with
  | some m, some n =>
    match ps with
    | p0 :: p1 :: rest => .ok (mk (m.src p0) (n.src p1), rest)
    | _ => .error .truncated
  | _, _ => .error .reservedMode

/-- Decode an instruction whose opcode is valid, from its fields and the words after the instruction word. -/
def decodeOperands (op : Opcode) (f : Fields) (ps : List Word) : Except Reject (Instr × List Word) :=
  match op with
  | .add => decodeF3 .add f ps
  | .mul => decodeF3 .mul f ps
  | .input => decodeF1D .input ps
  | .output => decodeF1S .output f ps
  | .jnz => decodeF2J .jnz f ps
  | .jz => decodeF2J .jz f ps
  | .lt => decodeF3 .lt f ps
  | .eq => decodeF3 .eq f ps
  | .hlt => .ok (.hlt, ps)

/-- The decoder: the instruction at the front of a list of words, with the words after it, or why there is none. The
checks come in the order of R92: the opcode, then the consulted modes, then the presence of the operand words. -/
def decode : List Word → Except Reject (Instr × List Word)
  | [] => .error .truncated
  | w :: ps =>
    match Opcode.ofInt? (decodeFields w).opcode with
    | none => .error .invalidOpcode
    | some op => decodeOperands op (decodeFields w) ps

/-- The mode digit of a source operand (R85). -/
def Src.digit : Src → Nat
  | .pos _ => 0
  | .imm _ => 1

/-- The operand word of a source operand. -/
def Src.word : Src → Word
  | .pos p => p
  | .imm p => p

/-- The canonical instruction word (R96): opcode + 100 mode0 + 1000 mode1, ignored digits 0. -/
def canonicalWord (op : Opcode) (mode0 mode1 : Nat) : Word :=
  BitVec.ofNat Config.XLEN (op.code + 100 * mode0 + 1000 * mode1)

/-- The encoder: the words of an instruction, with the canonical instruction word (R80, R83, R96). -/
def encode : Instr → List Word
  | .add a b dst => [canonicalWord .add a.digit b.digit, a.word, b.word, dst]
  | .mul a b dst => [canonicalWord .mul a.digit b.digit, a.word, b.word, dst]
  | .input dst => [canonicalWord .input 0 0, dst]
  | .output a => [canonicalWord .output a.digit 0, a.word]
  | .jnz a t => [canonicalWord .jnz a.digit t.digit, a.word, t.word]
  | .jz a t => [canonicalWord .jz a.digit t.digit, a.word, t.word]
  | .lt a b dst => [canonicalWord .lt a.digit b.digit, a.word, b.word, dst]
  | .eq a b dst => [canonicalWord .eq a.digit b.digit, a.word, b.word, dst]
  | .hlt => [canonicalWord .hlt 0 0]

/-- The four words whose bits are those of `w`: word k is bits 64k+63 .. 64k. Bits from `nbits` on are 0 (log 18). -/
def tableWords (nbits w : Nat) : List Word :=
  (List.range 4).map fun k => BitVec.ofNat Config.XLEN ((w % 2 ^ nbits) >>> (Config.XLEN * k))

/-- What the decoder reads from an instruction whose bits are `w`, the first word in the lowest bits (log 18). -/
def decodeTableWord (nbits w : Nat) : Option Instr :=
  match decode (tableWords nbits w) with
  | .ok (i, _) => some i
  | .error _ => none

end Sys2Proof
end

