-- ==== Sys2Proof/Machine/State.lean ====
section
/-! DEFINITION. The state of the machine (spec/10_state.md), its stops, and the state after reset. Plain data. -/

namespace Sys2Proof.Machine

/-- A memory image (R23, R50): `size` is `MEM_SIZE`; the address space is 0 .. size - 1, one word per address. `cells`
lists the words that differ from `Memory.unlisted`, at strictly rising addresses (log 2; `Memory.wf` in Machine/Ops.lean). -/
structure Memory where
  size : Nat
  cells : List (Nat × Word)
deriving DecidableEq, Repr

/-- The fault kinds (spec/60_exceptions.md R170). An engine takes a fault as a NEXT state (R178), never as a `Fault`. -/
inductive FaultKind where
  /-- Code 1, reserved: no step raises it (R171; log 17). -/
  | decodeFault
  /-- Code 2 (R172). -/
  | invalidOpcode
  /-- Code 3 (R173). -/
  | inputExhausted
  /-- Code 4 (R174). -/
  | channelClosed
  /-- Code 5 (R175). -/
  | outOfBounds
  /-- Code 6 (R176). -/
  | reservedMode
deriving DecidableEq, Repr

/-- `STATE` with the fault record `FKIND`, `FIP` (R25, R27). The record exists exactly while the engine is FAULTED:
before that `FIP` has no value and `FKIND` is 0 (log 6). -/
inductive RunState where
  | running
  | halted
  | faulted (kind : FaultKind) (fip : Word)
deriving DecidableEq, Repr

/-- `IN_KIND` with `IN_LINK` (R26): where the input channel reads. -/
inductive Source where
  | buffer
  | link (k : Nat)
deriving DecidableEq, Repr

/-- `OUT_KIND` with `OUT_LINK` (R26): where emitted words go. -/
inductive Sink where
  | buffer
  | link (k : Nat)
deriving DecidableEq, Repr

/-- `PHASE_EN`, `PHASE` and `PHASE_PENDING` (R26, R28): without a configured phase `PHASE` has no value (log 8). -/
inductive StartPhase where
  /-- `PHASE_EN` = 0. -/
  | off
  /-- `PHASE_EN` = 1, `PHASE_PENDING` = 1. -/
  | pending (v : Word)
  /-- `PHASE_EN` = 1, `PHASE_PENDING` = 0. -/
  | consumed (v : Word)
deriving DecidableEq, Repr

/-- An event of the debug trace (R31, R124; log 17). -/
inductive Event where
  | input (v : Word)
  | output (v : Word)
deriving DecidableEq, Repr

/-- One engine (R23 to R31). -/
structure Engine where
  /-- `MEM` and `MEM_SIZE`. -/
  mem : Memory
  /-- `IP`. -/
  ip : Word
  /-- `STATE`, `FKIND`, `FIP`. -/
  run : RunState
  /-- `VMID`. -/
  vmid : Nat
  /-- `IN_KIND`, `IN_LINK`. -/
  source : Source
  /-- `OUT_KIND`, `OUT_LINK`. -/
  sink : Sink
  /-- `PHASE_EN`, `PHASE`, `PHASE_PENDING`. -/
  phase : StartPhase
  /-- `IBUF`. -/
  ibuf : List Word
  /-- `IPOS`. -/
  ipos : Nat
  /-- `OBUF`. -/
  obuf : List Word
  /-- `DEBUG`. -/
  debug : Bool
  /-- `TRACE`. -/
  trace : List Event
deriving DecidableEq, Repr

/-- One link (R33). -/
structure Link where
  /-- `Q`, oldest word first. -/
  q : List Word
  /-- `CLOSED`. -/
  closed : Bool
  /-- `LAST`, which has a value exactly when `LAST_VALID` = 1 (log 7). -/
  last : Option Word
  /-- `WCOUNT`. -/
  wcount : Nat
deriving DecidableEq, Repr

/-- Which launch the run began from: a single engine (spec/70_reset_and_hazards.md R212), or a pipeline (R213) with
`FEEDBACK` false or true (spec/00_scope.md R6). -/
inductive Topology where
  | single
  | linear
  | feedback
deriving DecidableEq, Repr

/-- The whole system: the engines `E[0] ..` and the links `L[0] ..`, with the model's own three fields that say which
engine steps (log 4). -/
structure State where
  /-- `E[0] .. E[N_ENG - 1]`. -/
  engines : List Engine
  /-- `L[0] ..`, as many as the topology has (spec/60_exceptions.md R190). -/
  links : List Link
  /-- The entry point used, and `FEEDBACK`. -/
  topology : Topology
  /-- The model's own: the engine whose instruction `exec` runs. -/
  cur : Nat
  /-- The model's own: the choices of engine still to be made, the next one first. -/
  sched : List Nat
  /-- The model's own: how many choices have been made. -/
  picks : Nat
deriving DecidableEq, Repr

/-- Why the machine has no next state. No instruction raises any of these: a fault of the spec is a next state. -/
inductive Fault where
  /-- Raised by `step` when every engine is HALTED or FAULTED: the run has ended (R218; log 11). Safe: the spec gives no step. -/
  | runEnded
  /-- Raised by `step` when some engine is RUNNING and none can step: the run is stuck (R195; log 11). Safe: the spec gives no step. -/
  | stuck
  /-- Raised by `exec` and `stepAs` when the acting engine does not exist or is not RUNNING: it takes no step (R25, R92).
  Safe; `step` never asks for it (log 10). -/
  | notRunning
deriving DecidableEq, Repr

/-- What the model gives no meaning. -/
inductive Refusal where
  /-- Raised by `exec` alone, for an instruction without a meaning. Safe. -/
  | notModelled (mnemonic : String)
  /-- Raised by IN and OUT on an engine that is wired to a link the state does not have; no launch builds such a state
  (R190; log 9). Safe. -/
  | noLink
deriving DecidableEq, Repr

/-- What running an instruction, or a step, answers. -/
abbrev Result : Type := Host.Outcome State Fault Refusal

/-- The launch state of a single engine with an empty Program, an empty input buffer, no phase and no debug (R210, R212;
logs 3, 4, 6, 8). -/
def Engine.reset : Engine where
  mem := { size := 0, cells := [] }
  ip := 0
  run := .running
  vmid := 0
  source := .buffer
  sink := .buffer
  phase := .off
  ibuf := []
  ipos := 0
  obuf := []
  debug := false
  trace := []

/-- The machine right after reset: reset is launch (R210); the launch of a single engine with an empty Program (log 3).
The last three values are the model's own (log 4). -/
def State.reset : State where
  engines := [Engine.reset]
  links := []
  topology := .single
  cur := 0
  sched := []
  picks := 0

end Sys2Proof.Machine
end

