-- ==== Sys2Proof/Machine/Ops.lean ====
section
/-! DEFINITION. The named operations over memory, engines and links, entering a terminal state, and taking a fault. -/

namespace Sys2Proof.Machine

/-! ### Words -/

/-- `wrap` (spec/00_scope.md R9): the word congruent to an integer modulo 2^XLEN. -/
def wrap (z : Int) : Word := BitVec.ofInt Config.XLEN z

/-! ### Memory (spec/20_memory.md R50 to R60) -/

/-- What an address inside the image reads as when no cell lists it (log 2). -/
def Memory.unlisted : Word := 0

/-- The canonical form (log 2): rising addresses inside the image, and no cell that equals what an unlisted one reads as. -/
abbrev Memory.wf (m : Memory) : Prop :=
  m.cells.Pairwise (fun c d => c.1 < d.1) ∧ ∀ c ∈ m.cells, c.2 ≠ Memory.unlisted ∧ c.1 < m.size

/-- `InBounds(addr)` (spec/00_scope.md R11): 0 ≤ addr < MEM_SIZE, the address read as a signed word. -/
def Memory.inBounds (m : Memory) (a : Word) : Bool :=
  0 ≤ a.toInt && a.toInt < m.size

/-- The word listed for a numeric address. -/
def lookupCell : List (Nat × Word) → Nat → Word
  | [], _ => Memory.unlisted
  | (b, w) :: cs, a => if a = b then w else lookupCell cs a

/-- List a word for an address, before the first cell of a higher address, in place of one of the same address. -/
def insertCell : List (Nat × Word) → Nat → Word → List (Nat × Word)
  | [], a, v => [(a, v)]
  | (b, w) :: cs, a, v =>
    if a < b then (a, v) :: (b, w) :: cs
    else if a = b then (a, v) :: cs
    else (b, w) :: insertCell cs a v

/-- Set the word of a numeric address; the word that an unlisted address reads as is not listed. -/
def setCell (cs : List (Nat × Word)) (a : Nat) (v : Word) : List (Nat × Word) :=
  if v = Memory.unlisted then cs.filter fun c => c.1 ≠ a else insertCell cs a v

/-- The word at a numeric address. -/
def Memory.peek (m : Memory) (a : Nat) : Word := lookupCell m.cells a

/-- Set the word at a numeric address. -/
def Memory.poke (m : Memory) (a : Nat) (v : Word) : Memory := { m with cells := setCell m.cells a v }

/-- `MemRead(addr, 1)` (R52): none where the spec raises OutOfBoundsFault. -/
def Memory.read? (m : Memory) (a : Word) : Option Word :=
  if m.inBounds a then some (m.peek a.toInt.toNat) else none

/-- `MemWrite(addr, 1, v)` (R53): none where the spec raises OutOfBoundsFault. -/
def Memory.write? (m : Memory) (a v : Word) : Option Memory :=
  if m.inBounds a then some (m.poke a.toInt.toNat v) else none

/-- The words at `a`, `a` + 1, ..: at most `n`, ending before the first address outside the image. -/
def Memory.window (m : Memory) : Nat → Word → List Word
  | 0, _ => []
  | n + 1, a =>
    match m.read? a with
    | none => []
    | some w => w :: m.window n (a + 1)

/-! ### Names of the spec for what an engine and a link hold (spec/10_state.md section 2 to 4) -/

/-- The numeric code of a fault kind (R170). -/
def FaultKind.code : FaultKind → Nat
  | .decodeFault => 1
  | .invalidOpcode => 2
  | .inputExhausted => 3
  | .channelClosed => 4
  | .outOfBounds => 5
  | .reservedMode => 6

/-- The numeric code of `STATE` (R25). -/
def RunState.code : RunState → Nat
  | .running => 0
  | .halted => 1
  | .faulted _ _ => 2

/-- `FKIND` (R27). -/
def Engine.fkind (e : Engine) : Nat :=
  match e.run with
  | .faulted k _ => k.code
  | _ => 0

/-- `FIP` (R27); it has no value until a fault is taken (log 6). -/
def Engine.fip (e : Engine) : Option Word :=
  match e.run with
  | .faulted _ a => some a
  | _ => none

/-- `PHASE_EN` (R26). -/
def Engine.phaseEn (e : Engine) : Bool :=
  match e.phase with
  | .off => false
  | _ => true

/-- `PHASE` (R28); it has no value when `PHASE_EN` = 0 (log 8). -/
def Engine.phaseValue (e : Engine) : Option Word :=
  match e.phase with
  | .off => none
  | .pending v => some v
  | .consumed v => some v

/-- `PHASE_PENDING` (R28). -/
def Engine.phasePending (e : Engine) : Bool :=
  match e.phase with
  | .pending _ => true
  | _ => false

/-- `LAST_VALID` (R33). -/
def Link.lastValid (l : Link) : Bool := l.last.isSome

/-- Is the engine HALTED or FAULTED (a terminal state, spec/60_exceptions.md R181)? -/
def Engine.terminal (e : Engine) : Bool := e.run ≠ .running

/-! ### Engines and links of a state -/

/-- `E[i]`. -/
def State.engine? (s : State) (i : Nat) : Option Engine := s.engines[i]?

/-- `L[k]`. -/
def State.link? (s : State) (k : Nat) : Option Link := s.links[k]?

/-- The engine that executes: engine `cur`, provided it is RUNNING (R25: only a RUNNING engine takes steps). -/
def State.acting? (s : State) : Option Engine :=
  match s.engine? s.cur with
  | none => none
  | some e => if e.run = .running then some e else none

/-- Replace the engine that executes. -/
def State.putEngine (s : State) (e : Engine) : State := { s with engines := s.engines.set s.cur e }

/-- Move `IP` on by a number of words (R24; log 16). -/
def Engine.advance (e : Engine) (n : Nat) : Engine := { e with ip := wrap (e.ip.toInt + n) }

/-- Append an event to the debug trace when `DEBUG` = 1 (spec/41_io_and_channels.md R124). -/
def Engine.traced (e : Engine) (ev : Event) : Engine :=
  { e with trace := if e.debug then e.trace ++ [ev] else e.trace }

/-! ### Entering a terminal state (R121, R160, R178) -/

/-- Set `CLOSED` of the link a sink names, if it names one (R121). No word is discarded. -/
def closedLinks (ls : List Link) : Sink → List Link
  | .buffer => ls
  | .link k =>
    match ls[k]? with
    | none => ls
    | some l => ls.set k { l with closed := true }

/-- The engine that executes, given as `e`, enters a terminal state and closes its output link in the same step. -/
def State.terminate (s : State) (e : Engine) (r : RunState) : State :=
  ({ s with links := closedLinks s.links e.sink } : State).putEngine { e with run := r }

/-- Fault entry (R178), the machine's one exception entry: `STATE` becomes FAULTED, `FKIND` and `FIP` are recorded, the
output link is closed, and nothing else changes. There is no handler and no return (R181). -/
def State.raise (s : State) (e : Engine) (k : FaultKind) : State :=
  s.terminate e (.faulted k e.ip)

/-- The fault that a rejected word raises at dispatch or operand fetch (R172, R176, R93, R94). -/
def FaultKind.ofReject : Reject → FaultKind
  | .invalidOpcode => .invalidOpcode
  | .reservedMode => .reservedMode
  | .truncated => .outOfBounds

/-- Run an instruction that touches nothing outside its engine: it gives the engine's next state, or a fault. -/
def State.onEngine (s : State) (f : Engine → Except FaultKind Engine) : Result :=
  match s.acting? with
  | none => .fault .notRunning
  | some e =>
    match f e with
    | .ok e' => .next (s.putEngine e')
    | .error k => .next (s.raise e k)

/-! ### The link FIFO (R114, R118) -/

/-- `LinkWrite(L, v)` (R118). -/
def Link.write (l : Link) (v : Word) : Link :=
  { l with q := l.q ++ [v], last := some v, wcount := l.wcount + 1 }

/-- What reading an input stream gives (R112 to R115). -/
inductive Read where
  /-- A word, with the engine and the links after the read. -/
  | word (v : Word) (e : Engine) (ls : List Link)
  /-- Nothing yet: the step is a stall (R115). -/
  | stall
  /-- The stream cannot deliver (R113, R114). -/
  | fault (k : FaultKind)
  /-- The state does not have the link the engine reads (log 9). -/
  | noLink
deriving DecidableEq, Repr

/-- `BufferRead()` (R113). -/
def Engine.bufferRead (e : Engine) (ls : List Link) : Read :=
  match e.ibuf[e.ipos]? with
  | some v => .word v { e with ipos := e.ipos + 1 } ls
  | none => .fault .inputExhausted

/-- `LinkRead()` from link `k` (R114): a closed link still delivers what it holds. -/
def Engine.linkRead (e : Engine) (ls : List Link) (k : Nat) : Read :=
  match ls[k]? with
  | none => .noLink
  | some l =>
    match l.q with
    | v :: rest => .word v e (ls.set k { l with q := rest })
    | [] => if l.closed then .fault .channelClosed else .stall

/-- `ChanRead()` (R112): the starting phase while it is pending, then the configured channel. -/
def Engine.chanRead (e : Engine) (ls : List Link) : Read :=
  match e.phase with
  | .pending v => .word v { e with phase := .consumed v } ls
  | _ =>
    match e.source with
    | .buffer => e.bufferRead ls
    | .link k => e.linkRead ls k

/-- `ChanWrite(v)` (R116, R117, R118): the engine and the links after the word is emitted; none when the state does not
have the link the engine produces (log 9). It never stalls and never faults. -/
def Engine.chanWrite (e : Engine) (ls : List Link) (v : Word) : Option (Engine × List Link) :=
  match e.sink with
  | .buffer => some ({ e with obuf := e.obuf ++ [v] }, ls)
  | .link k =>
    match ls[k]? with
    | none => none
    | some l => some (e, ls.set k (l.write v))

end Sys2Proof.Machine
end

