-- ==== Sys2Proof/Machine/Flags.lean ====
section
/-! DEFINITION. The machine has no status flags (spec/10_state.md R21): a comparison gives the word 0 or 1 and a
conditional jump tests a word. Those two computations, and the results of ADD and MUL. -/

namespace Sys2Proof.Machine

/-- The word a comparison writes: exactly 1 or 0 (spec/43_compare.md R150, R151). -/
def truthWord (b : Bool) : Word := if b then 1 else 0

/-- The result of LT: a signed comparison (R150). -/
def ltWord (x y : Word) : Word := truthWord (x.toInt < y.toInt)

/-- The result of EQ (R151). -/
def eqWord (x y : Word) : Word := truthWord (x.toInt = y.toInt)

/-- The condition of JNZ (spec/42_jumps.md R140): any word but 0, negative ones included. -/
def isNonzero (x : Word) : Bool := x.toInt ≠ 0

/-- The condition of JZ (R141). -/
def isZero (x : Word) : Bool := x.toInt = 0

/-- The result of ADD: the exact sum, wrapped (spec/40_arithmetic.md R100, R102). -/
def addWord (x y : Word) : Word := wrap (x.toInt + y.toInt)

/-- The result of MUL: the exact product, wrapped (R101, R102). -/
def mulWord (x y : Word) : Word := wrap (x.toInt * y.toInt)

end Sys2Proof.Machine
end

