-- ==== Sys2Proof/Machine/Operands.lean ====
section
/-! DEFINITION. Operand values, and the operand shapes that several instructions share (spec/30_encoding.md R83, R89). -/

namespace Sys2Proof.Machine

/-- `Val(p, m)` (R89): none where the position-mode read raises OutOfBoundsFault. -/
def Engine.val? (e : Engine) : Src → Option Word
  | .pos p => e.mem.read? p
  | .imm p => some p

/-- Format F3 (R100, R101, R150, R151): read source 0, then source 1, then check the destination, then write the result and
advance by 4. Both sources are read before the write (spec/20_memory.md R60). -/
def Engine.threeOperand (f : Word → Word → Word) (a b : Src) (dst : Word) (e : Engine) : Except FaultKind Engine :=
  match e.val? a with
  | none => .error .outOfBounds
  | some x =>
    match e.val? b with
    | none => .error .outOfBounds
    | some y =>
      match e.mem.write? dst (f x y) with
      | none => .error .outOfBounds
      | some m => .ok (({ e with mem := m } : Engine).advance 4)

/-- Format F2J (R140, R141): read the condition; only if it holds read the target and load it into `IP`. -/
def Engine.jumpIf (cond : Word → Bool) (a t : Src) (e : Engine) : Except FaultKind Engine :=
  match e.val? a with
  | none => .error .outOfBounds
  | some x =>
    if cond x then
      match e.val? t with
      | none => .error .outOfBounds
      | some y => .ok { e with ip := y }
    else .ok (e.advance 3)

end Sys2Proof.Machine
end

