-- ==== Sys2Proof/Machine/Arithmetic.lean ====
section
/-! DEFINITION. ADD and MUL (spec/40_arithmetic.md). -/

namespace Sys2Proof.Machine

/-- ADD (R100). -/
def execAdd (a b : Src) (dst : Word) (s : State) : Result :=
  s.onEngine (Engine.threeOperand addWord a b dst)

/-- MUL (R101). -/
def execMul (a b : Src) (dst : Word) (s : State) : Result :=
  s.onEngine (Engine.threeOperand mulWord a b dst)

end Sys2Proof.Machine
end

