-- ==== Sys2Proof/Machine/Channels.lean ====
section
/-! DEFINITION. IN and OUT (spec/41_io_and_channels.md). -/

namespace Sys2Proof.Machine

/-- IN (R110): the destination is checked before the input stream is touched; a stall changes nothing (R115). -/
def execInput (dst : Word) (s : State) : Result :=
  match s.acting? with
  | none => .fault .notRunning
  | some e =>
    if e.mem.inBounds dst then
      match e.chanRead s.links with
      | .noLink => .refused .noLink
      | .stall => .next s
      | .fault k => .next (s.raise e k)
      | .word v e' ls =>
        .next (({ s with links := ls } : State).putEngine
          ((({ e' with mem := e'.mem.poke dst.toInt.toNat v } : Engine).advance 2).traced (.input v)))
    else .next (s.raise e .outOfBounds)

/-- OUT (R111). -/
def execOutput (a : Src) (s : State) : Result :=
  match s.acting? with
  | none => .fault .notRunning
  | some e =>
    match e.val? a with
    | none => .next (s.raise e .outOfBounds)
    | some v =>
      match e.chanWrite s.links v with
      | none => .refused .noLink
      | some (e', ls) =>
        .next (({ s with links := ls } : State).putEngine ((e'.advance 2).traced (.output v)))

end Sys2Proof.Machine
end

