-- ==== Sys2Proof/Machine/Compare.lean ====
section
/-! DEFINITION. LT and EQ (spec/43_compare.md). -/

namespace Sys2Proof.Machine

/-- LT (R150). -/
def execLt (a b : Src) (dst : Word) (s : State) : Result :=
  s.onEngine (Engine.threeOperand ltWord a b dst)

/-- EQ (R151). -/
def execEq (a b : Src) (dst : Word) (s : State) : Result :=
  s.onEngine (Engine.threeOperand eqWord a b dst)

end Sys2Proof.Machine
end

