-- ==== Sys2Proof/Machine/Halt.lean ====
section
/-! DEFINITION. HLT (spec/44_halt.md). -/

namespace Sys2Proof.Machine

/-- HLT (R160): HALTED, the output link closed, `IP` unchanged. -/
def execHlt (s : State) : Result :=
  match s.acting? with
  | none => .fault .notRunning
  | some e => .next (s.terminate e .halted)

end Sys2Proof.Machine
end

