-- ==== Sys2Proof/Machine/Jumps.lean ====
section
/-! DEFINITION. JNZ and JZ (spec/42_jumps.md). -/

namespace Sys2Proof.Machine

/-- JNZ (R140). -/
def execJnz (a t : Src) (s : State) : Result :=
  s.onEngine (Engine.jumpIf isNonzero a t)

/-- JZ (R141). -/
def execJz (a t : Src) (s : State) : Result :=
  s.onEngine (Engine.jumpIf isZero a t)

end Sys2Proof.Machine
end

