-- ==== Sys2Proof/Machine/Cycle.lean ====
section
/-! DEFINITION. The fetch, decode, dispatch cycle of one engine (spec/30_encoding.md R92), which engine may step
(spec/60_exceptions.md R191), and placing an instruction where the next step fetches it. -/

namespace Sys2Proof.Machine

/-- Steps 1 to 5 of R92: the instruction at `IP`, or the fault its fetch raises. The words read are `IP` .. `IP` + 3 as far
as the image goes; the decoder looks only at the instruction's own (log 15). -/
def Engine.fetch (e : Engine) : Except FaultKind Instr :=
  match decode (e.mem.window 4 e.ip) with
  | .ok (i, _) => .ok i
  | .error r => .error (.ofReject r)

/-- Engine `i` takes its step (R92). -/
def State.stepAs (s : State) (i : Nat) : Result :=
  match ({ s with cur := i } : State).acting? with
  | none => .fault .notRunning
  | some e =>
    match e.fetch with
    | .error k => .next (({ s with cur := i } : State).raise e k)
    | .ok j => exec j { s with cur := i }

/-- Would the engine's next step be a stall (R115; log 12)? -/
def Engine.stalls (e : Engine) (ls : List Link) : Bool :=
  match e.fetch with
  | .ok (.input dst) => e.mem.inBounds dst && e.chanRead ls = .stall
  | _ => false

/-- May engine `i` take the next step: it exists, it is RUNNING, and its step is not a stall (R115, R191). -/
def State.enabled (s : State) (i : Nat) : Bool :=
  match s.engine? i with
  | none => false
  | some e => e.run = .running && !e.stalls s.links

/-- The engines that may take the next step, lowest index first. -/
def State.enabledEngines (s : State) : List Nat :=
  (List.range s.engines.length).filter s.enabled

/-- The engine index that the next choice names (log 4): the head of `sched`, or a free value when `sched` is used up. -/
def State.choice (s : State) : Nat :=
  match s.sched with
  | c :: _ => c
  | [] => Config.freeChoice s.picks

/-- The engine that takes the next step (log 4): the only enabled one if there is just one; otherwise the first enabled
engine from `choice` on, and from engine 0 again if there is none. -/
def State.pick? (s : State) : Option Nat :=
  match s.enabledEngines with
  | [] => none
  | [i] => some i
  | i :: j :: is =>
    match (i :: j :: is).find? fun k => s.choice ≤ k with
    | some k => some k
    | none => some i

/-- Make one choice: the model's own fields move on (log 4). -/
def State.chosen (s : State) : State := { s with sched := s.sched.tail, picks := s.picks + 1 }

/-- Has the run ended: is every engine HALTED or FAULTED (spec/70_reset_and_hazards.md R218)? -/
def State.ended (s : State) : Bool := s.engines.all Engine.terminal

/-- The stop when no engine can step: the run has ended (R218), or it is stuck (R195; log 11). -/
def State.idleFault (s : State) : Fault := if s.ended then .runEnded else .stuck

/-- One step of the system: an engine is chosen and takes its step (R191). -/
def State.systemStep (s : State) : Result :=
  match s.pick? with
  | none => .fault s.idleFault
  | some i => s.chosen.stepAs i

/-- Write words at consecutive numeric addresses, growing the image to hold them. -/
def Memory.place (m : Memory) (a : Nat) : List Word → Memory
  | [] => m
  | w :: ws => (({ m with size := max m.size (a + 1) } : Memory).poke a w).place (a + 1) ws

/-- Load the words of an instruction at `IP`, with the engine RUNNING; an `IP` that no image can hold becomes 0. -/
def Engine.withWords (e : Engine) (ws : List Word) : Engine :=
  if 0 ≤ e.ip.toInt ∧ e.ip.toInt + ws.length ≤ Config.maxMemSize then
    { e with mem := e.mem.place e.ip.toInt.toNat ws, run := .running }
  else { e with mem := e.mem.place 0 ws, ip := 0, run := .running }

/-- Stand for the load of a Program that begins, at the acting engine's `IP`, with these words, and choose that engine for
the next step (log 18). -/
def State.placeWords (s : State) (ws : List Word) : State :=
  match s.engine? s.cur with
  | none => { s with engines := [Engine.reset.withWords ws], cur := 0, sched := 0 :: s.sched }
  | some e => { s.putEngine (e.withWords ws) with sched := s.cur :: s.sched }

end Sys2Proof.Machine
end

