-- ==== Sys2Proof/Machine/Step.lean ====
section
/-! DEFINITION. One step of the machine. -/

namespace Sys2Proof.Machine

/-- One step: an engine that can step is chosen and takes one atomic step (R92, R191); a stop when none can. -/
def step (s : State) : Host.Outcome State Fault Refusal := s.systemStep

/-- The state with an instruction's bits stored where `step` fetches its next instruction (log 18). -/
def State.withFetchWord (s : State) (nbits w : Nat) : State := s.placeWords (tableWords nbits w)

end Sys2Proof.Machine
end

