-- ==== Sys2Proof/Machine/Launch.lean ====
section
/-! DEFINITION. What the host does before a run and after it (spec/70_reset_and_hazards.md R210 to R222): the launch
states, and the read-out of the result. During a run the host has no move (R217). -/

namespace Sys2Proof.Machine

/-- An integer as a word; none outside the range of a word (R211). -/
def wordOfInt? (z : Int) : Option Word := if (wrap z).toInt = z then some (wrap z) else none

/-- A list of integers as words, if each is one. -/
def wordsOfInts? : List Int → Option (List Word)
  | [] => some []
  | z :: zs =>
    match wordOfInt? z, wordsOfInts? zs with
    | some w, some ws => some (w :: ws)
    | _, _ => none

/-- A Program that can be loaded: every integer a word, and no longer than the largest image (R211, spec/00_scope.md R5). -/
def programWords? (prog : List Int) : Option (List Word) :=
  if prog.length ≤ Config.maxMemSize then wordsOfInts? prog else none

/-- The cells of words at consecutive addresses. -/
def cellsFrom : Nat → List Word → List (Nat × Word)
  | _, [] => []
  | a, w :: ws => if w = Memory.unlisted then cellsFrom (a + 1) ws else (a, w) :: cellsFrom (a + 1) ws

/-- A copy of the Program as a memory image (R211). -/
def Memory.load (ws : List Word) : Memory := { size := ws.length, cells := cellsFrom 0 ws }

/-- The starting phase at launch: `PHASE_PENDING` = `PHASE_EN` (spec/10_state.md R28). -/
def StartPhase.launch : Option Word → StartPhase
  | none => .off
  | some v => .pending v

/-- An engine in its launch state (spec/10_state.md R37). -/
def Engine.launch (ws : List Word) (vmid : Nat) (source : Source) (sink : Sink) (phase : Option Word) (ibuf : List Word)
    (debug : Bool) : Engine where
  mem := Memory.load ws
  ip := 0
  run := .running
  vmid := vmid
  source := source
  sink := sink
  phase := StartPhase.launch phase
  ibuf := ibuf
  ipos := 0
  obuf := []
  debug := debug
  trace := []

/-- The launch state of a single engine (R212); none when the Program cannot be loaded (R211; log 19). -/
def State.launchSingle? (prog : List Int) (ibuf : List Word) (phase : Option Word) (debug : Bool) : Option State :=
  match programWords? prog with
  | none => none
  | some ws =>
    some {
      engines := [Engine.launch ws 0 .buffer .buffer phase ibuf debug]
      links := []
      topology := .single
      cur := 0
      sched := []
      picks := 0 }

/-- A link before any word is written to it (spec/10_state.md R33). -/
def Link.empty : Link := { q := [], closed := false, last := none, wcount := 0 }

/-- `SEED` (spec/00_scope.md R8). -/
def seedWord : Word := 0

/-- `L[0]` at launch: it holds the seed (R214), and is closed in the linear topology (R215). -/
def Link.seeded (feedback : Bool) : Link := { Link.empty.write seedWord with closed := !feedback }

/-- `OUT_LINK` of engine `i` of `n` (spec/60_exceptions.md R190). -/
def outLink (n : Nat) (feedback : Bool) (i : Nat) : Nat := if feedback && i + 1 = n then 0 else i + 1

/-- The engines of a pipeline of `n`, from engine `i` on, one for each phase setting (R213). `IBUF` is empty: the spec gives it
no value where `IN_KIND` = `LINK` (spec/10_state.md R29, R37). DESIGN CHOICE, safe: no step reads it there (log 20). -/
def launchEngines (ws : List Word) (n : Nat) (feedback : Bool) (debugs : List Bool) : Nat → List Word → List Engine
  | _, [] => []
  | i, p :: ps =>
    Engine.launch ws i (.link i) (.link (outLink n feedback i)) (some p) [] (debugs.getD i false)
      :: launchEngines ws n feedback debugs (i + 1) ps

/-- The links of a pipeline of `n` engines: `L[0] .. L[n]` when linear, `L[0] .. L[n-1]` with feedback (R190, R213). -/
def launchLinks (n : Nat) (feedback : Bool) : List Link :=
  Link.seeded feedback :: List.replicate (if feedback then n - 1 else n) Link.empty

/-- The launch state of a pipeline with one engine for each phase setting (R213); none when the Program cannot be loaded
(R211) or there is no engine (spec/00_scope.md R6; log 19). `debugs` gives `DEBUG` of each engine, off where it is too short. -/
def State.launchPipeline? (prog : List Int) (phases : List Word) (feedback : Bool) (debugs : List Bool) : Option State :=
  match phases, programWords? prog with
  | [], _ => none
  | _, none => none
  | p :: ps, some ws =>
    some {
      engines := launchEngines ws (ps.length + 1) feedback debugs 0 (p :: ps)
      links := launchLinks (ps.length + 1) feedback
      topology := if feedback then .feedback else .linear
      cur := 0
      sched := []
      picks := 0 }

/-- The result of a run (R218 to R221). -/
inductive RunResult where
  /-- Some engine is still RUNNING: the run has not ended (R218). -/
  | notEnded
  /-- The run failed: the record of one faulted engine (R221). -/
  | fault (vmid : Nat) (kind : FaultKind) (fip : Word)
  /-- A single engine's output sequence (R219). -/
  | output (ws : List Word)
  /-- A pipeline's result, the last word written to the result link (R220). -/
  | value (w : Word)
  /-- The run succeeded and the result link never carried a word: no result, not 0 (R220). -/
  | noValue
deriving DecidableEq, Repr

/-- The fault record of an engine, with its `VMID` (R221). -/
def Engine.faultRecord? (e : Engine) : Option (Nat × FaultKind × Word) :=
  match e.run with
  | .faulted k a => some (e.vmid, k, a)
  | _ => none

/-- The fault records of the faulted engines. -/
def State.faultRecords (s : State) : List (Nat × FaultKind × Word) := s.engines.filterMap Engine.faultRecord?

/-- The index of the result link of a pipeline: `L[0]` with feedback, `L[N]` when linear (spec/60_exceptions.md R190). -/
def State.resultLink (s : State) : Nat :=
  match s.topology with
  | .feedback => 0
  | _ => s.engines.length

/-- The result when no engine has faulted (R219, R220); the read-out pops nothing. -/
def State.successResult (s : State) : RunResult :=
  match s.topology with
  | .single =>
    match s.engine? 0 with
    | some e => .output e.obuf
    | none => .noValue
  | _ =>
    match s.link? s.resultLink with
    | none => .noValue
    | some l =>
      match l.last with
      | some w => .value w
      | none => .noValue

/-- The result of the run (R218 to R221). `firstFault` is the open parameter `FIRST_FAULT` (decision D14; log 14): it says
which of the faulted engines is reported. -/
def State.result (firstFault : Nat) (s : State) : RunResult :=
  if s.ended then
    match s.faultRecords with
    | [] => s.successResult
    | r :: rs =>
      match (r :: rs).getD (firstFault % (rs.length + 1)) r with
      | (v, k, a) => .fault v k a
  else .notEnded

end Sys2Proof.Machine
end

