-- ==== Sys2Proof/Safety.lean ====
section
/-! DEFINITION. The terms in which claims are stated: the invariant of the machine, what a step leaves alone, the
interleavings of the engines' steps, and what two states have in common. -/

namespace Sys2Proof.Machine

/-- What holds of an engine: its memory is canonical and of a size a launch may give (spec/00_scope.md R5); `IPOS` is within
`IBUF` (spec/10_state.md R29); a channel realisation that is not configured is untouched (R29, R30), as is the trace with
`DEBUG` = 0 (R31); and the fault record is that of the engine's `IP` and never the reserved kind (R27,
spec/60_exceptions.md R171, R178). -/
structure Engine.Ok (e : Engine) : Prop where
  memWf : e.mem.wf
  memSize : e.mem.size ≤ Config.maxMemSize
  iposLe : e.ipos ≤ e.ibuf.length
  iposUnused : e.source ≠ .buffer → e.ipos = 0
  obufUnused : e.sink ≠ .buffer → e.obuf = []
  traceOff : e.debug = false → e.trace = []
  faultRecord : ∀ k a, e.run = .faulted k a → a = e.ip ∧ k ≠ .decodeFault

/-- What holds of a link (R33): no more words wait than were written; `LAST` has a value exactly when a word was written; and
the newest waiting word is `LAST`. -/
structure Link.Ok (l : Link) : Prop where
  qLe : l.q.length ≤ l.wcount
  lastNone : l.last = none ↔ l.wcount = 0
  lastQ : l.q ≠ [] → l.last = l.q.getLast?

/-- The wiring (spec/10_state.md R26, R34, spec/41_io_and_channels.md R123): an engine's `VMID` is its index, its links exist,
and a link has at most one engine that reads it and at most one that writes it. -/
structure State.Wired (s : State) : Prop where
  vmid : ∀ i e, s.engine? i = some e → e.vmid = i
  sourceLink : ∀ i e k, s.engine? i = some e → e.source = .link k → k < s.links.length
  sinkLink : ∀ i e k, s.engine? i = some e → e.sink = .link k → k < s.links.length
  oneReader : ∀ i j e f k, s.engine? i = some e → s.engine? j = some f → e.source = .link k → f.source = .link k → i = j
  oneWriter : ∀ i j e f k, s.engine? i = some e → s.engine? j = some f → e.sink = .link k → f.sink = .link k → i = j

/-- The invariant of the machine. Its last part is closure (spec/41_io_and_channels.md R121): the link an engine writes is
closed exactly when the engine is HALTED or FAULTED. -/
structure State.Inv (s : State) : Prop where
  engines : ∀ i e, s.engine? i = some e → e.Ok
  links : ∀ k l, s.link? k = some l → l.Ok
  wired : s.Wired
  closure : ∀ i e k l, s.engine? i = some e → e.sink = .link k → s.link? k = some l → (l.closed = true ↔ e.run ≠ .running)

/-- Two engines agree on everything a step never writes: `MEM_SIZE` and the configuration (spec/10_state.md R23, R26), the
input buffer (R29), and whether and which phase is configured (R28). -/
def Engine.SameConfig (e f : Engine) : Prop :=
  f.mem.size = e.mem.size ∧ f.vmid = e.vmid ∧ f.source = e.source ∧ f.sink = e.sink ∧ f.debug = e.debug
    ∧ f.ibuf = e.ibuf ∧ f.phaseEn = e.phaseEn ∧ f.phaseValue = e.phaseValue

/-- Two engines agree on every field but `MEM` and `IP`. -/
def Engine.SameButMemIp (e f : Engine) : Prop :=
  f.run = e.run ∧ f.vmid = e.vmid ∧ f.source = e.source ∧ f.sink = e.sink ∧ f.phase = e.phase ∧ f.ibuf = e.ibuf
    ∧ f.ipos = e.ipos ∧ f.obuf = e.obuf ∧ f.debug = e.debug ∧ f.trace = e.trace

/-- Two states agree on everything outside the acting engine and the links: the other engines, the topology, and the model's
own fields. -/
def State.SameElsewhere (s t : State) : Prop :=
  (∀ j, j ≠ s.cur → t.engine? j = s.engine? j) ∧ t.topology = s.topology ∧ t.cur = s.cur ∧ t.sched = s.sched
    ∧ t.picks = s.picks

/-- The words an engine's IN instructions can still receive without waiting, in order: the pending phase, then the rest of
the buffer or the words in the link (spec/41_io_and_channels.md R125). -/
def Engine.stream (e : Engine) (ls : List Link) : List Word :=
  let channel := match e.source with
    | .buffer => e.ibuf.drop e.ipos
    | .link k =>
      match ls[k]? with
      | some l => l.q
      | none => []
  match e.phase with
  | .pending v => v :: channel
  | _ => channel

/-- The state with `DEBUG` off and no trace in any engine (spec/60_exceptions.md R197). -/
def State.untraced (s : State) : State :=
  { s with engines := s.engines.map fun e => { e with debug := false, trace := [] } }

/-- Two states agree on all the spec gives the machine: everything but the model's own three fields (log 4). -/
def State.SameMachine (s t : State) : Prop :=
  t.engines = s.engines ∧ t.links = s.links ∧ t.topology = s.topology

/-- The interleavings (spec/60_exceptions.md R191): at each moment any engine that may step may take the next step. The
number counts the steps. -/
inductive State.Runs : Nat → State → State → Prop where
  | refl (s : State) : State.Runs 0 s s
  | step {n : Nat} {s t u : State} (i : Nat) (en : s.enabled i = true) (st : s.stepAs i = .next t) (h : State.Runs n t u) :
      State.Runs (n + 1) s u

/-- No engine can step and some engine is not terminal (spec/60_exceptions.md R195): stuck, not ended. -/
def State.Stuck (s : State) : Prop := s.ended = false ∧ ∀ i, s.enabled i = false

end Sys2Proof.Machine
end

