-- ==== Sys2Proof/Certificates/Slice0/Obligations.lean ====
section
/-! DEFINITION. The statements for the provers. Each docstring names the rules of spec/ it formalises. A statement whose
conclusion is `exec i s = .next t` says that the instruction completes; `s.acting? = some e` says that `e` is the engine
that executes and that it is RUNNING. -/

open Sys2Proof Sys2Proof.Machine

/-! ### Encoding -/

/-- What it is for an instruction word to raise InvalidOpcodeFault: the RUNNING engine that fetches it takes that fault. -/
def RaisesInvalidOpcode (w : Word) : Prop :=
  ∀ (s : State) (e : Engine), s.acting? = some e → e.mem.read? e.ip = some w →
    s.stepAs s.cur = .next (s.raise e .invalidOpcode)

/-- R97: the worked decode examples, as fields and as executed. -/
def Obligations.WorkedWordsDecode : Prop :=
  decodeFields 1002 = ⟨2, 0, 1, 0⟩ ∧ decodeFields 11199 = ⟨99, 1, 1, 1⟩ ∧ decodeFields 10011 = ⟨11, 0, 0, 1⟩ ∧
  (∀ p0 p1 p2 rest, decode (1002 :: p0 :: p1 :: p2 :: rest) = .ok (.mul (.pos p0) (.imm p1) p2, rest)) ∧
  (∀ rest, decode (11199 :: rest) = .ok (.hlt, rest)) ∧
  RaisesInvalidOpcode 10011

/-- The instruction encodes to these words, and they decode to it. -/
def Spells (i : Instr) (ws : List Word) : Prop :=
  encode i = ws ∧ decode ws = .ok (i, [])

/-- R96, R141, R151: the worked assembly examples, one of every instruction at least, as words and as instructions. -/
def Obligations.AssemblyExamplesSpell : Prop :=
  Spells (.mul (.pos 16) (.imm 10) 16) [1002, 16, 10, 16] ∧
  Spells (.add (.imm 5) (.pos 23) 23) [101, 5, 23, 23] ∧
  Spells (.jnz (.pos 28) (.imm 6)) [1005, 28, 6] ∧
  Spells (.jnz (.imm 1) (.imm 12)) [1105, 1, 12] ∧
  Spells (.jz (.imm 0) (.imm 9)) [1106, 0, 9] ∧
  Spells (.lt (.pos 31) (.imm 0) 33) [1007, 31, 0, 33] ∧
  Spells (.eq (.pos 54) (.imm 0) 55) [1008, 54, 0, 55] ∧
  Spells (.input 15) [3, 15] ∧
  Spells (.output (.pos 15)) [4, 15] ∧
  Spells (.output (.imm 7)) [104, 7] ∧
  Spells .hlt [99]

/-- R80, R83, R96: decoding the encoding of any instruction, whatever follows it, gives that instruction and what follows. -/
def Obligations.DecodeOfEncode : Prop :=
  ∀ (i : Instr) (rest : List Word), decode (encode i ++ rest) = .ok (i, rest)

/-- R80, R86: what decodes to an instruction is its encoding but for the ignored digits: the same operand words, the same
opcode field, and the same consulted mode digits. -/
def Obligations.EncodeOfDecode : Prop :=
  ∀ (w : Word) (ps : List Word) (i : Instr) (rest : List Word), decode (w :: ps) = .ok (i, rest) →
    ∃ v, encode i ++ rest = v :: ps ∧ (decodeFields v).opcode = (decodeFields w).opcode ∧
      (decodeFields w).opcode = i.opcode.code ∧
      (1 ≤ i.opcode.sources → (decodeFields v).mode0 = (decodeFields w).mode0) ∧
      (2 ≤ i.opcode.sources → (decodeFields v).mode1 = (decodeFields w).mode1)

/-- R81: the fields of a non-negative word are its decimal digits: they lie in the ranges of digits and rebuild the word. -/
def Obligations.FieldsRebuildWord : Prop :=
  ∀ w : Word, 0 ≤ w.toInt →
    w.toInt = (decodeFields w).opcode + 100 * (decodeFields w).mode0 + 1000 * (decodeFields w).mode1
      + 10000 * (decodeFields w).mode2 ∧
    0 ≤ (decodeFields w).opcode ∧ (decodeFields w).opcode < 100 ∧
    0 ≤ (decodeFields w).mode0 ∧ (decodeFields w).mode0 < 10 ∧
    0 ≤ (decodeFields w).mode1 ∧ (decodeFields w).mode1 < 10 ∧ 0 ≤ (decodeFields w).mode2

/-- R82: a negative word has its opcode field in -99 .. 0 and raises InvalidOpcodeFault; for the others every field is non-negative and
truncating and flooring division agree. -/
def Obligations.NegativeWordsInvalid : Prop :=
  (∀ w : Word, w.toInt < 0 →
    -99 ≤ (decodeFields w).opcode ∧ (decodeFields w).opcode ≤ 0 ∧ RaisesInvalidOpcode w) ∧
  (∀ w : Word, 0 ≤ w.toInt →
    0 ≤ (decodeFields w).opcode ∧ 0 ≤ (decodeFields w).mode0 ∧ 0 ≤ (decodeFields w).mode1 ∧ 0 ≤ (decodeFields w).mode2 ∧
    decodeFields w = ⟨w.toInt.fmod 100, (w.toInt.fdiv 100).fmod 10, (w.toInt.fdiv 1000).fmod 10, w.toInt.fdiv 10000⟩)

/-- R87, R88, R94, and their order in R92: which words are rejected, and why. The opcode is checked first, then the consulted
mode digits, then that the operand words are there. -/
def Obligations.DecodeVerdicts : Prop :=
  ∀ (w : Word) (ps : List Word),
    (decode (w :: ps) = .error .invalidOpcode ↔ ∀ o : Opcode, (decodeFields w).opcode ≠ o.code) ∧
    (decode (w :: ps) = .error .reservedMode ↔ ∃ o : Opcode, (decodeFields w).opcode = o.code ∧
      ((1 ≤ o.sources ∧ (decodeFields w).mode0 ≠ 0 ∧ (decodeFields w).mode0 ≠ 1) ∨
       (2 ≤ o.sources ∧ (decodeFields w).mode1 ≠ 0 ∧ (decodeFields w).mode1 ≠ 1))) ∧
    (decode (w :: ps) = .error .truncated ↔ ∃ o : Opcode, (decodeFields w).opcode = o.code ∧ ps.length < o.operands ∧
      (1 ≤ o.sources → (decodeFields w).mode0 = 0 ∨ (decodeFields w).mode0 = 1) ∧
      (2 ≤ o.sources → (decodeFields w).mode1 = 0 ∨ (decodeFields w).mode1 = 1))

/-- R86: words with the same opcode field and the same consulted mode digits decode alike, whatever their other digits; the
rule's own examples are 1, 10001, 20001, 100001 and 3, 103. -/
def Obligations.IgnoredDigitsIgnored : Prop :=
  (∀ (v w : Word) (ps : List Word), (decodeFields v).opcode = (decodeFields w).opcode →
    (∀ o : Opcode, (decodeFields w).opcode = o.code →
      (1 ≤ o.sources → (decodeFields v).mode0 = (decodeFields w).mode0) ∧
      (2 ≤ o.sources → (decodeFields v).mode1 = (decodeFields w).mode1)) →
    decode (v :: ps) = decode (w :: ps)) ∧
  (∀ (w : Word) (p0 p1 p2 : Word) (rest : List Word), w ∈ ([1, 10001, 20001, 100001] : List Word) →
    decode (w :: p0 :: p1 :: p2 :: rest) = .ok (.add (.pos p0) (.pos p1) p2, rest)) ∧
  (∀ (w : Word) (p0 : Word) (rest : List Word), w ∈ ([3, 103] : List Word) → decode (w :: p0 :: rest) = .ok (.input p0, rest))

/-! ### Words and memory -/

/-- R9, R102: `wrap z` is the one word congruent to `z` modulo 2^XLEN, and it is `z` itself when `z` fits a word. -/
def Obligations.WrapIsCongruentWord : Prop :=
  (∀ (z : Int) (w : Word), w = wrap z ↔ (w.toInt - z) % (2 ^ Config.XLEN : Int) = 0) ∧
  (∀ z : Int, -(2 ^ (Config.XLEN - 1) : Int) ≤ z → z < (2 ^ (Config.XLEN - 1) : Int) → (wrap z).toInt = z)

/-- R52, R53: an access answers exactly inside 0 .. MEM_SIZE - 1; a written word is read back; no other address changes; the
size stays; and the canonical form is kept. -/
def Obligations.MemoryReadsAndWrites : Prop :=
  ∀ (m : Memory) (a v : Word),
    ((m.read? a).isSome = true ↔ 0 ≤ a.toInt ∧ a.toInt < m.size) ∧
    ((m.write? a v).isSome = true ↔ 0 ≤ a.toInt ∧ a.toInt < m.size) ∧
    ∀ m', m.write? a v = some m' →
      m'.size = m.size ∧ m'.read? a = some v ∧ (∀ b, b ≠ a → m'.read? b = m.read? b) ∧ (m.wf → m'.wf)

/-! ### Instructions -/

/-- What R100, R101, R150 and R151 say of an instruction with two sources and a destination: its encoding; which words decode to it,
whatever their third mode digit; with both sources readable and the destination in bounds it completes, writing `f` of the two
values and advancing by 4; otherwise it faults. -/
def ThreeOperandRule (mk : Src → Src → Word → Instr) (code : Nat) (f : Word → Word → Word) : Prop :=
  (∀ (a b : Src) (dst : Word),
    encode (mk a b dst) = [BitVec.ofNat Config.XLEN (code + 100 * a.digit + 1000 * b.digit), a.word, b.word, dst]) ∧
  (∀ (w : Word) (a b : Src) (dst : Word) (rest : List Word), (decodeFields w).opcode = code →
    (decodeFields w).mode0 = a.digit → (decodeFields w).mode1 = b.digit →
    decode (w :: a.word :: b.word :: dst :: rest) = .ok (mk a b dst, rest)) ∧
  ∀ (s : State) (e : Engine) (a b : Src) (dst : Word), s.acting? = some e →
    (∀ x y, e.val? a = some x → e.val? b = some y → e.mem.inBounds dst = true →
      exec (mk a b dst) s
        = .next (s.putEngine { e with mem := e.mem.poke dst.toInt.toNat (f x y), ip := wrap (e.ip.toInt + 4) })) ∧
    (e.val? a = none ∨ e.val? b = none ∨ e.mem.inBounds dst = false →
      exec (mk a b dst) s = .next (s.raise e .outOfBounds))

/-- R100: ADD. -/
def Obligations.AddWritesWrappedSum : Prop :=
  ThreeOperandRule .add 1 fun x y => wrap (x.toInt + y.toInt)

/-- R101: MUL. -/
def Obligations.MulWritesWrappedProduct : Prop :=
  ThreeOperandRule .mul 2 fun x y => wrap (x.toInt * y.toInt)

/-- R150: LT. -/
def Obligations.LtWritesOneOrZero : Prop :=
  ThreeOperandRule .lt 7 fun x y => if x.toInt < y.toInt then 1 else 0

/-- R151: EQ. -/
def Obligations.EqWritesOneOrZero : Prop :=
  ThreeOperandRule .eq 8 fun x y => if x = y then 1 else 0

/-- What R140 and R141 say of a conditional jump that is taken when `cond` holds of its first operand: its encoding; which words
decode to it; and what it does. The target is evaluated only when the jump is taken. -/
def JumpRule (mk : Src → Src → Instr) (code : Nat) (cond : Word → Prop) : Prop :=
  (∀ a t : Src, encode (mk a t) = [BitVec.ofNat Config.XLEN (code + 100 * a.digit + 1000 * t.digit), a.word, t.word]) ∧
  (∀ (w : Word) (a t : Src) (rest : List Word), (decodeFields w).opcode = code →
    (decodeFields w).mode0 = a.digit → (decodeFields w).mode1 = t.digit →
    decode (w :: a.word :: t.word :: rest) = .ok (mk a t, rest)) ∧
  ∀ (s : State) (e : Engine) (a t : Src), s.acting? = some e →
    (∀ x y, e.val? a = some x → cond x → e.val? t = some y →
      exec (mk a t) s = .next (s.putEngine { e with ip := y })) ∧
    (∀ x, e.val? a = some x → ¬ cond x →
      exec (mk a t) s = .next (s.putEngine { e with ip := wrap (e.ip.toInt + 3) })) ∧
    (∀ x, e.val? a = some x → cond x → e.val? t = none → exec (mk a t) s = .next (s.raise e .outOfBounds)) ∧
    (e.val? a = none → exec (mk a t) s = .next (s.raise e .outOfBounds))

/-- R140: JNZ jumps when the value is not 0. -/
def Obligations.JnzJumpsWhenNotZero : Prop :=
  JumpRule .jnz 5 fun x => x ≠ 0

/-- R141: JZ jumps when the value is 0. -/
def Obligations.JzJumpsWhenZero : Prop :=
  JumpRule .jz 6 fun x => x = 0

/-- R110, R180: an IN with a bad destination faults, whatever the state of its input, and consumes nothing. -/
def Obligations.InputBadDestinationFaults : Prop :=
  ∀ (s : State) (e : Engine) (dst : Word), s.acting? = some e → e.mem.inBounds dst = false →
    exec (.input dst) s = .next (s.raise e .outOfBounds)

/-- R110, R112: an IN with a pending phase takes it and looks at no channel. -/
def Obligations.InputTakesPhase : Prop :=
  ∀ (s : State) (e : Engine) (dst v : Word), s.acting? = some e → e.mem.inBounds dst = true → e.phase = .pending v →
    exec (.input dst) s = .next (s.putEngine { e with
      phase := .consumed v
      mem := e.mem.poke dst.toInt.toNat v
      ip := wrap (e.ip.toInt + 2)
      trace := if e.debug then e.trace ++ [.input v] else e.trace })

/-- R110, R113: an IN that reaches the finite buffer takes its next word, or faults when there is none; it never waits. -/
def Obligations.InputReadsBuffer : Prop :=
  ∀ (s : State) (e : Engine) (dst : Word), s.acting? = some e → e.mem.inBounds dst = true → e.phasePending = false →
    e.source = .buffer →
    (∀ v, e.ibuf[e.ipos]? = some v → exec (.input dst) s = .next (s.putEngine { e with
      ipos := e.ipos + 1
      mem := e.mem.poke dst.toInt.toNat v
      ip := wrap (e.ip.toInt + 2)
      trace := if e.debug then e.trace ++ [.input v] else e.trace })) ∧
    (e.ibuf.length ≤ e.ipos → exec (.input dst) s = .next (s.raise e .inputExhausted))

/-- R110, R114, R115: an IN that reaches its link pops the oldest word; on an empty closed link it faults; on an empty open link
it stalls and nothing changes. -/
def Obligations.InputReadsLink : Prop :=
  ∀ (s : State) (e : Engine) (dst : Word) (k : Nat) (l : Link), s.acting? = some e → e.mem.inBounds dst = true →
    e.phasePending = false → e.source = .link k → s.link? k = some l →
    (∀ v rest, l.q = v :: rest → exec (.input dst) s = .next (
      ({ s with links := s.links.set k { l with q := rest } } : State).putEngine { e with
        mem := e.mem.poke dst.toInt.toNat v
        ip := wrap (e.ip.toInt + 2)
        trace := if e.debug then e.trace ++ [.input v] else e.trace })) ∧
    (l.q = [] → l.closed = true → exec (.input dst) s = .next (s.raise e .channelClosed)) ∧
    (l.q = [] → l.closed = false → exec (.input dst) s = .next s)

/-- R111, R116, R118: the encoding of OUT; which words decode to it; it emits the value of its operand to its one sink and advances
by 2, or faults when the operand cannot be read; it never waits. -/
def Obligations.OutputEmitsValue : Prop :=
  (∀ a : Src, encode (.output a) = [BitVec.ofNat Config.XLEN (4 + 100 * a.digit), a.word]) ∧
  (∀ (w : Word) (a : Src) (rest : List Word), (decodeFields w).opcode = 4 → (decodeFields w).mode0 = a.digit →
    decode (w :: a.word :: rest) = .ok (.output a, rest)) ∧
  ∀ (s : State) (e : Engine) (a : Src), s.acting? = some e →
    (∀ v, e.val? a = some v → e.sink = .buffer → exec (.output a) s = .next (s.putEngine { e with
      obuf := e.obuf ++ [v]
      ip := wrap (e.ip.toInt + 2)
      trace := if e.debug then e.trace ++ [.output v] else e.trace })) ∧
    (∀ v k l, e.val? a = some v → e.sink = .link k → s.link? k = some l → exec (.output a) s = .next (
      ({ s with links := s.links.set k { l with q := l.q ++ [v], last := some v, wcount := l.wcount + 1 } } : State).putEngine
        { e with
          ip := wrap (e.ip.toInt + 2)
          trace := if e.debug then e.trace ++ [.output v] else e.trace })) ∧
    (e.val? a = none → exec (.output a) s = .next (s.raise e .outOfBounds))

/-- R160: the encoding of HLT; which words decode to it, whatever follows them; it enters HALTED, closes the output link if there
is one, and changes nothing else, `IP` included. -/
def Obligations.HltHaltsAndCloses : Prop :=
  encode .hlt = [99] ∧
  (∀ (w : Word) (rest : List Word), (decodeFields w).opcode = 99 → decode (w :: rest) = .ok (.hlt, rest)) ∧
  ∀ (s : State) (e : Engine), s.acting? = some e →
    (e.sink = .buffer → exec .hlt s = .next (s.putEngine { e with run := .halted })) ∧
    (∀ k l, e.sink = .link k → s.link? k = some l → exec .hlt s = .next (
      ({ s with links := s.links.set k { l with closed := true } } : State).putEngine { e with run := .halted }))

/-- The model's convention of log 9: an engine wired to a link that does not exist cannot read or write it, and the
instruction is refused by name; halting closes no link. -/
def Obligations.MissingLinkIsRefused : Prop :=
  ∀ (s : State) (e : Engine) (k : Nat), s.acting? = some e → s.link? k = none →
    (∀ dst, e.mem.inBounds dst = true → e.phasePending = false → e.source = .link k →
      exec (.input dst) s = .refused .noLink) ∧
    (∀ a v, e.val? a = some v → e.sink = .link k → exec (.output a) s = .refused .noLink) ∧
    (e.sink = .link k → exec .hlt s = .next (s.putEngine { e with run := .halted }))

/-- R178: fault entry. The engine becomes FAULTED with the kind and its `IP`; `FKIND` and `FIP` read so; its output link is closed
and keeps its words; and nothing else changes. -/
def Obligations.FaultEntryRecordsAndCloses : Prop :=
  ∀ (s : State) (e : Engine) (k : FaultKind), s.acting? = some e →
    s.SameElsewhere (s.raise e k) ∧
    (∃ f, (s.raise e k).engine? s.cur = some f ∧ f = { e with run := .faulted k e.ip } ∧ f.run.code = 2 ∧ f.fkind = k.code ∧
      f.fip = some e.ip) ∧
    (∀ j l, s.link? j = some l →
      (s.raise e k).link? j = some (if e.sink = .link j then { l with closed := true } else l)) ∧
    (s.raise e k).links.length = s.links.length

/-! ### Frames -/

/-- R60, R100, R101, R150, R151: what ADD, MUL, LT and EQ leave unchanged. They fault, or they change only the word at the
destination and `IP`. -/
def Obligations.ThreeOperandFrame : Prop :=
  ∀ (s t : State) (e : Engine) (a b : Src) (dst : Word) (i : Instr), s.acting? = some e →
    (i = .add a b dst ∨ i = .mul a b dst ∨ i = .lt a b dst ∨ i = .eq a b dst) → exec i s = .next t →
    t = s.raise e .outOfBounds ∨
    (s.SameElsewhere t ∧ t.links = s.links ∧
      ∃ f, t.engine? s.cur = some f ∧ e.SameButMemIp f ∧ f.mem.size = e.mem.size ∧
        ∀ x, x ≠ dst → f.mem.read? x = e.mem.read? x)

/-- R140, R141: what JNZ and JZ leave unchanged. They fault, or they change only `IP`. -/
def Obligations.JumpFrame : Prop :=
  ∀ (s t : State) (e : Engine) (a b : Src) (i : Instr), s.acting? = some e → (i = .jnz a b ∨ i = .jz a b) →
    exec i s = .next t →
    t = s.raise e .outOfBounds ∨
    (s.SameElsewhere t ∧ t.links = s.links ∧ ∃ f, t.engine? s.cur = some f ∧ e.SameButMemIp f ∧ f.mem = e.mem)

/-- R110, R112, R113, R114, R124: what IN leaves unchanged. It faults, or it stalls, or it changes only the word at its
destination, `IP`, the one part of the input stream it read, and the trace. -/
def Obligations.InputFrame : Prop :=
  ∀ (s t : State) (e : Engine) (dst : Word), s.acting? = some e → exec (.input dst) s = .next t →
    (∃ k, (k = .outOfBounds ∨ k = .inputExhausted ∨ k = .channelClosed) ∧ t = s.raise e k) ∨ t = s ∨
    (s.SameElsewhere t ∧ t.links.length = s.links.length ∧
      (∀ k, e.source ≠ .link k → t.link? k = s.link? k) ∧
      (∀ k l l', s.link? k = some l → t.link? k = some l' → l'.closed = l.closed ∧ l'.last = l.last ∧ l'.wcount = l.wcount) ∧
      ∃ f, t.engine? s.cur = some f ∧ f.mem.size = e.mem.size ∧ (∀ x, x ≠ dst → f.mem.read? x = e.mem.read? x) ∧
        f.run = e.run ∧ f.vmid = e.vmid ∧ f.source = e.source ∧ f.sink = e.sink ∧ f.ibuf = e.ibuf ∧ f.obuf = e.obuf ∧
        f.debug = e.debug ∧ f.phaseValue = e.phaseValue ∧ (e.debug = false → f.trace = e.trace) ∧
        (e.phasePending = true → f.ipos = e.ipos ∧ t.links = s.links) ∧
        (e.phasePending = false → f.phase = e.phase) ∧ (e.source ≠ .buffer → f.ipos = e.ipos))

/-- R111, R116, R117, R118, R124: what OUT leaves unchanged. It faults, or it changes only `IP`, its one sink and the trace. All of
memory is unchanged. -/
def Obligations.OutputFrame : Prop :=
  ∀ (s t : State) (e : Engine) (a : Src), s.acting? = some e → exec (.output a) s = .next t →
    t = s.raise e .outOfBounds ∨
    (s.SameElsewhere t ∧ t.links.length = s.links.length ∧ (∀ k, e.sink ≠ .link k → t.link? k = s.link? k) ∧
      (∀ k l l', s.link? k = some l → t.link? k = some l' → l'.closed = l.closed) ∧
      ∃ f, t.engine? s.cur = some f ∧ f.mem = e.mem ∧ f.run = e.run ∧ f.vmid = e.vmid ∧ f.source = e.source ∧ f.sink = e.sink ∧
        f.phase = e.phase ∧ f.ibuf = e.ibuf ∧ f.ipos = e.ipos ∧ f.debug = e.debug ∧ (e.debug = false → f.trace = e.trace) ∧
        (e.sink ≠ .buffer → f.obuf = e.obuf))

/-- R160, R121: what HLT leaves unchanged. It changes only `STATE` and `CLOSED` of the output link; words in the links stay. -/
def Obligations.HltFrame : Prop :=
  ∀ (s t : State) (e : Engine), s.acting? = some e → exec .hlt s = .next t →
    s.SameElsewhere t ∧ t.links.length = s.links.length ∧ (∀ k, e.sink ≠ .link k → t.link? k = s.link? k) ∧
    (∀ k l l', s.link? k = some l → t.link? k = some l' → l'.q = l.q ∧ l'.last = l.last ∧ l'.wcount = l.wcount) ∧
    ∃ f, t.engine? s.cur = some f ∧ f.mem = e.mem ∧ f.ip = e.ip ∧ f.vmid = e.vmid ∧ f.source = e.source ∧ f.sink = e.sink ∧
      f.phase = e.phase ∧ f.ibuf = e.ibuf ∧ f.ipos = e.ipos ∧ f.obuf = e.obuf ∧ f.debug = e.debug ∧ f.trace = e.trace ∧
      f.fkind = 0

/-! ### The step -/

/-- R92: when the words at `IP` of the chosen engine decode to an instruction, the step runs exactly it; when they do not, the step
takes the fault of the rejection. Around `exec` the step makes one choice (log 4) and makes the chosen engine the acting one. -/
def Obligations.StepRunsDecoded : Prop :=
  ∀ (s : State) (i : Nat) (e : Engine), s.pick? = some i → s.engine? i = some e →
    (∀ (j : Instr) (rest : List Word), decode (e.mem.window 4 e.ip) = .ok (j, rest) →
      step s = exec j { s with cur := i, sched := s.sched.tail, picks := s.picks + 1 }) ∧
    (∀ r : Reject, decode (e.mem.window 4 e.ip) = .error r →
      step s = .next (({ s with cur := i, sched := s.sched.tail, picks := s.picks + 1 } : State).raise e (.ofReject r)))

/-- R80, R92: an instruction's words at `IP`, `IP` + 1, .. are fetched as that instruction, with whatever ignored digits the
instruction word has, and whatever follows. -/
def Obligations.FetchReadsPlacedWords : Prop :=
  ∀ (e : Engine) (ws : List Word) (i : Instr), decode ws = .ok (i, []) →
    (∀ (k : Nat) (w : Word), ws[k]? = some w → e.mem.read? (wrap (e.ip.toInt + k)) = some w) → e.fetch = .ok i

/-- R93, R94, R172, R176, in the order of R180: which fault the fetch raises. -/
def Obligations.FetchFaultPriority : Prop :=
  ∀ e : Engine,
    (e.mem.inBounds e.ip = false → e.fetch = .error .outOfBounds) ∧
    ∀ w, e.mem.read? e.ip = some w →
      ((∀ o : Opcode, (decodeFields w).opcode ≠ o.code) → e.fetch = .error .invalidOpcode) ∧
      ((decodeFields w).opcodeOk = true → (decodeFields w).modesOk = false → e.fetch = .error .reservedMode) ∧
      (∀ (o : Opcode) (k : Nat), (decodeFields w).opcode = o.code → (decodeFields w).modesOk = true → 1 ≤ k → k ≤ o.operands →
        e.mem.inBounds (wrap (e.ip.toInt + k)) = false → e.fetch = .error .outOfBounds)

/-- R115, R191: an engine may step exactly when it exists, is RUNNING, and is not at an IN that would stall. -/
def Obligations.EnabledExactly : Prop :=
  ∀ (s : State) (i : Nat), s.enabled i = true ↔
    ∃ e, s.engine? i = some e ∧ e.run = .running ∧
      ¬ ∃ dst k l, e.fetch = .ok (.input dst) ∧ e.mem.inBounds dst = true ∧ e.phasePending = false ∧ e.source = .link k ∧
        s.link? k = some l ∧ l.q = [] ∧ l.closed = false

/-- R191: the engine that steps may step; a choice is made whenever one can; and any engine that may step can be the one.
How a choice is made is the model's own (log 4). -/
def Obligations.PickChoosesAnyEnabled : Prop :=
  (∀ (s : State) (i : Nat), s.pick? = some i → s.enabled i = true) ∧
  (∀ s : State, s.pick? = none ↔ ∀ i, s.enabled i = false) ∧
  (∀ (s : State) (i : Nat) (rest : List Nat), s.enabled i = true → ({ s with sched := i :: rest } : State).pick? = some i)

/-- R195, R218: the machine has no step exactly when the run has ended or is stuck; it says which by a stop of the model's own
(log 11). -/
def Obligations.StopsOnlyWhenEndedOrStuck : Prop :=
  ∀ s : State, s.Inv →
    (s.ended = true → step s = .fault .runEnded) ∧
    (s.Stuck → step s = .fault .stuck) ∧
    (s.ended = false → ¬ s.Stuck → ∃ t, step s = .next t)

/-- R92, R191: an engine that may step does step; nothing is refused. -/
def Obligations.EnabledEngineSteps : Prop :=
  ∀ (s : State) (i : Nat), s.Inv → s.enabled i = true → ∃ t, s.stepAs i = .next t

/-- R68, R194: once the engine that writes a link has terminated, an IN that finds the link empty raises ChannelClosedFault and
does not wait. -/
def Obligations.TerminatedWriterReleasesReader : Prop :=
  ∀ (s : State) (i j k : Nat) (e f : Engine) (l : Link) (dst : Word), s.Inv → s.engine? i = some e → s.engine? j = some f →
    s.link? k = some l → e.run = .running → e.fetch = .ok (.input dst) → e.mem.inBounds dst = true → e.phasePending = false →
    e.source = .link k → f.sink = .link k → f.run ≠ .running → l.q = [] →
    s.stepAs i = .next (({ s with cur := i } : State).raise e .channelClosed)

/-! ### The whole machine -/

/-- The invariant holds after reset. -/
def Obligations.ResetMeetsInv : Prop :=
  State.reset.Inv

/-- R37, R212: what reset leaves, in the terms of the spec. That reset is the launch of a single engine with an empty Program is the
model's choice (log 3). -/
def Obligations.ResetValues : Prop :=
  State.launchSingle? [] [] none false = some State.reset ∧
  State.reset.engines.length = 1 ∧ State.reset.links = [] ∧
  ∀ e, State.reset.engine? 0 = some e →
    e.ip = 0 ∧ e.run.code = 0 ∧ e.fkind = 0 ∧ e.fip = none ∧ e.mem.size = 0 ∧ e.vmid = 0 ∧ e.source = .buffer ∧
    e.sink = .buffer ∧ e.phaseEn = false ∧ e.phasePending = false ∧ e.ipos = 0 ∧ e.obuf = [] ∧ e.debug = false ∧ e.trace = []

/-- R5, R23, R27, R29, R33, R34, R121, R123, R171: every step keeps the invariant, from every state that meets it. -/
def Obligations.StepKeepsInv : Prop :=
  ∀ s t : State, s.Inv → step s = .next t → t.Inv

/-- R190, R212, R213: every launch state meets the invariant. -/
def Obligations.LaunchesMeetInv : Prop :=
  (∀ prog ibuf phase debug s, State.launchSingle? prog ibuf phase debug = some s → s.Inv) ∧
  (∀ prog phases feedback debugs s, State.launchPipeline? prog phases feedback debugs = some s → s.Inv)

/-- R25, R181: a HALTED or FAULTED engine never changes again, whoever steps. -/
def Obligations.TerminalEnginesNeverChange : Prop :=
  ∀ (s t : State) (j : Nat) (e : Engine), step s = .next t → s.engine? j = some e → e.run ≠ .running →
    t.engine? j = some e

/-- R23, R26, R28, R29: no step changes the size of a memory, the configuration, the input buffers, the configured phases, or how
many engines and links there are. -/
def Obligations.ConfigurationNeverChanges : Prop :=
  ∀ s t : State, step s = .next t →
    t.topology = s.topology ∧ t.engines.length = s.engines.length ∧ t.links.length = s.links.length ∧
    ∀ i e, s.engine? i = some e → ∃ f, t.engine? i = some f ∧ e.SameConfig f

/-- R34: an engine's step changes no other engine and no link but the two it is wired to. -/
def Obligations.EngineTouchesOnlyItsOwn : Prop :=
  ∀ (s t : State) (i : Nat) (e : Engine), s.stepAs i = .next t → s.engine? i = some e →
    (∀ j, j ≠ i → t.engine? j = s.engine? j) ∧
    ∀ k, e.source ≠ .link k → e.sink ≠ .link k → t.link? k = s.link? k

/-- R34, R64, R193: an engine's step learns nothing of other engines and other links: in two states that agree on the engine and on
the links it is wired to, its step does the same to both. -/
def Obligations.EngineLearnsOnlyItsOwn : Prop :=
  ∀ (s s' t : State) (i : Nat) (e : Engine), s.engine? i = some e → s'.engine? i = some e →
    (∀ k, e.source = .link k ∨ e.sink = .link k → s'.link? k = s.link? k) → s.stepAs i = .next t →
    ∃ t', s'.stepAs i = .next t' ∧ t'.engine? i = t.engine? i ∧
      ∀ k, e.source = .link k ∨ e.sink = .link k → t'.link? k = t.link? k

/-- R65, R114, R118, R119, R121: what one engine's step can do to a link: nothing; or, by its reader, take the oldest word; or, by its
writer, append one word at the end and record it; or, by its writer entering a terminal state, close it with its words kept. -/
def Obligations.LinkStepIsFifo : Prop :=
  ∀ (s t : State) (i k : Nat) (e : Engine) (l : Link), s.stepAs i = .next t → s.engine? i = some e → s.link? k = some l →
    ∃ l', t.link? k = some l' ∧
      (l' = l ∨
       (e.source = .link k ∧ ∃ v, l.q = v :: l'.q ∧ l'.closed = l.closed ∧ l'.last = l.last ∧ l'.wcount = l.wcount) ∨
       (e.sink = .link k ∧ ∃ v, l'.q = l.q ++ [v] ∧ l'.closed = l.closed ∧ l'.last = some v ∧ l'.wcount = l.wcount + 1) ∨
       (e.sink = .link k ∧ l' = { l with closed := true } ∧ ∃ f, t.engine? i = some f ∧ f.run ≠ .running))

/-- R142: the only ways `IP` changes: not on HLT or a fault, after which the engine is not RUNNING; not on a stall; and otherwise as
the instruction says. -/
def Obligations.IpChangesOnlyAsListed : Prop :=
  ∀ (s t : State) (i : Nat) (e f : Engine), s.stepAs i = .next t → s.engine? i = some e → t.engine? i = some f →
    (f.run ≠ .running → f.ip = e.ip) ∧
    (e.stalls s.links = true → f.ip = e.ip) ∧
    (f.run = .running → e.stalls s.links = false → ∃ j, e.fetch = .ok j ∧
      (((j.opcode = .add ∨ j.opcode = .mul ∨ j.opcode = .lt ∨ j.opcode = .eq) ∧ f.ip = wrap (e.ip.toInt + 4)) ∨
       ((j.opcode = .input ∨ j.opcode = .output) ∧ f.ip = wrap (e.ip.toInt + 2)) ∨
       ((j.opcode = .jnz ∨ j.opcode = .jz) ∧ f.ip = wrap (e.ip.toInt + 3)) ∨
       ∃ a b, (j = .jnz a b ∨ j = .jz a b) ∧ e.val? b = some f.ip))

/-- R24: the advance of `IP` never wraps in an engine that meets the invariant. -/
def Obligations.IpAdvanceNeverWraps : Prop :=
  ∀ (e : Engine) (i : Instr) (n : Nat), e.Ok → e.fetch = .ok i → n ≤ 4 → (wrap (e.ip.toInt + n)).toInt = e.ip.toInt + n

/-- Instruction `i` completes and stores `v` at `dst`, and its engine's next fetch sees it: `v` is the instruction word if `IP` is now
`dst`, and whichever word of the next fetch has the address `dst` is `v`. -/
def StoreSeen (s : State) (i : Instr) (dst v : Word) : Prop :=
  ∃ t f, exec i s = .next t ∧ t.engine? s.cur = some f ∧ f.run = .running ∧ f.mem.read? dst = some v ∧
    (f.ip = dst → ∃ ps, f.mem.window 4 f.ip = v :: ps) ∧
    ∀ (k : Nat) (w : Word), (f.mem.window 4 f.ip)[k]? = some w → wrap (f.ip.toInt + k) = dst → w = v

/-- R62, R224, R110: the word that ADD, MUL, LT, EQ or IN stores is read back at its address and is what the next fetch sees there, be it
the very next instruction word. The word is the result of the instruction on the values of its operands (what `addWord`, `mulWord`,
`ltWord` and `eqWord` give), and for IN the first word of the engine's input stream. -/
def Obligations.StoreSeenByNextFetch : Prop :=
  ∀ (s : State) (e : Engine) (dst : Word), s.acting? = some e → e.mem.inBounds dst = true →
    (∀ (a b : Src) (x y : Word), e.val? a = some x → e.val? b = some y →
      StoreSeen s (.add a b dst) dst (wrap (x.toInt + y.toInt)) ∧
      StoreSeen s (.mul a b dst) dst (wrap (x.toInt * y.toInt)) ∧
      StoreSeen s (.lt a b dst) dst (if x.toInt < y.toInt then 1 else 0) ∧
      StoreSeen s (.eq a b dst) dst (if x = y then 1 else 0)) ∧
    ∀ (v : Word) (rest : List Word), e.stream s.links = v :: rest → StoreSeen s (.input dst) dst v

/-- R171: the reserved fault code 1 is never written. -/
def Obligations.ReservedFaultCodeNeverWritten : Prop :=
  ∀ s t : State, step s = .next t → (∀ i e, s.engine? i = some e → e.fkind ≠ 1) → ∀ i e, t.engine? i = some e → e.fkind ≠ 1

/-- R112, R125: the words IN instructions receive are the input stream in order: if a word is there, IN completes, receives the first
one, and leaves the rest. -/
def Obligations.InputReceivesStreamInOrder : Prop :=
  ∀ (s : State) (e : Engine) (dst v : Word) (rest : List Word), s.acting? = some e → e.mem.inBounds dst = true →
    e.stream s.links = v :: rest →
    ∃ t f, exec (.input dst) s = .next t ∧ t.engine? s.cur = some f ∧ f.mem.read? dst = some v ∧ f.stream t.links = rest

/-- R124, R197: DEBUG and the trace have no effect on execution: with all tracing taken away the same step is taken. -/
def Obligations.DebugHasNoEffect : Prop :=
  ∀ (s t : State) (i : Nat), s.stepAs i = .next t → s.untraced.stepAs i = .next t.untraced

/-! ### The host -/

/-- R211, R212: the launch state of a single engine. -/
def Obligations.LaunchSingleState : Prop :=
  ∀ (prog : List Int) (ibuf : List Word) (phase : Option Word) (debug : Bool) (s : State),
    State.launchSingle? prog ibuf phase debug = some s →
    s.links = [] ∧ s.topology = .single ∧ s.engines.length = 1 ∧
    ∃ e, s.engine? 0 = some e ∧ e.mem.size = prog.length ∧ (∀ a z, prog[a]? = some z → (e.mem.peek a).toInt = z) ∧
      e.ip = 0 ∧ e.run = .running ∧ e.fkind = 0 ∧ e.vmid = 0 ∧ e.source = .buffer ∧ e.ibuf = ibuf ∧ e.ipos = 0 ∧
      e.sink = .buffer ∧ e.obuf = [] ∧ e.phaseEn = phase.isSome ∧ e.phaseValue = phase ∧ e.phasePending = phase.isSome ∧
      e.debug = debug ∧ e.trace = []

/-- R190, R211, R213, R214, R215: the launch state of a pipeline. -/
def Obligations.LaunchPipelineState : Prop :=
  ∀ (prog : List Int) (phases : List Word) (feedback : Bool) (debugs : List Bool) (s : State),
    State.launchPipeline? prog phases feedback debugs = some s →
    s.topology = (if feedback then .feedback else .linear) ∧
    s.engines.length = phases.length ∧ s.links.length = (if feedback then phases.length else phases.length + 1) ∧
    s.link? 0 = some { q := [0], closed := !feedback, last := some 0, wcount := 1 } ∧
    (∀ k, 0 < k → k < s.links.length → s.link? k = some { q := [], closed := false, last := none, wcount := 0 }) ∧
    ∀ i p, phases[i]? = some p →
      ∃ e, s.engine? i = some e ∧ e.mem.size = prog.length ∧ (∀ a z, prog[a]? = some z → (e.mem.peek a).toInt = z) ∧
        e.ip = 0 ∧ e.run = .running ∧ e.fkind = 0 ∧ e.vmid = i ∧ e.phase = .pending p ∧ e.source = .link i ∧
        e.sink = .link (if feedback = true ∧ i + 1 = phases.length then 0 else i + 1) ∧ e.obuf = [] ∧ e.ipos = 0 ∧
        e.trace = [] ∧ e.debug = debugs.getD i false

/-- R5, R6, R211: exactly the launches that are refused: a Program that is too long or holds an integer outside the range of a word,
and a pipeline of no engine. -/
def Obligations.LaunchRefusals : Prop :=
  (∀ (prog : List Int) (ibuf : List Word) (phase : Option Word) (debug : Bool),
    State.launchSingle? prog ibuf phase debug = none ↔
      (Config.maxMemSize < prog.length ∨ ∃ z ∈ prog, z < -(2 ^ 63 : Int) ∨ (2 ^ 63 : Int) ≤ z)) ∧
  (∀ (prog : List Int) (phases : List Word) (feedback : Bool) (debugs : List Bool),
    State.launchPipeline? prog phases feedback debugs = none ↔
      (phases = [] ∨ Config.maxMemSize < prog.length ∨ ∃ z ∈ prog, z < -(2 ^ 63 : Int) ∨ (2 ^ 63 : Int) ≤ z))

/-- R218, R219, R220, R221: the read-out. A run has ended when no engine is RUNNING; a run with a faulted engine reports the record of a
faulted engine, and any of them for some `FIRST_FAULT` (log 14); otherwise the result is the output buffer, or `LAST` of the result link,
which may have no value. -/
def Obligations.ResultReadout : Prop :=
  ∀ (s : State) (n : Nat),
    (s.ended = true ↔ ∀ i e, s.engine? i = some e → e.run ≠ .running) ∧
    (s.ended = false → s.result n = .notEnded) ∧
    (s.ended = true → (∃ i e, s.engine? i = some e ∧ e.fkind ≠ 0) →
      ∃ i e k a, s.engine? i = some e ∧ e.run = .faulted k a ∧ s.result n = .fault e.vmid k a) ∧
    (∀ i e k a, s.ended = true → s.engine? i = some e → e.run = .faulted k a → ∃ m, s.result m = .fault e.vmid k a) ∧
    (s.ended = true → (∀ i e, s.engine? i = some e → e.run = .halted) →
      (∀ e, s.topology = .single → s.engine? 0 = some e → s.result n = .output e.obuf) ∧
      (∀ l, s.topology = .linear → s.link? s.engines.length = some l →
        s.result n = (match l.last with | some w => .value w | none => .noValue)) ∧
      (∀ l, s.topology = .feedback → s.link? 0 = some l →
        s.result n = (match l.last with | some w => .value w | none => .noValue)))

/-! ### Schedules -/

/-- R191, R196: the steps of two engines that may both step commute: each may still step after the other, and both orders lead to the
same machine. -/
def Obligations.EngineStepsCommute : Prop :=
  ∀ (s t u : State) (i j : Nat), s.Inv → i ≠ j → s.enabled i = true → s.enabled j = true → s.stepAs i = .next t →
    s.stepAs j = .next u →
    t.enabled j = true ∧ u.enabled i = true ∧
    ∃ v v', t.stepAs j = .next v ∧ u.stepAs i = .next v' ∧ v.SameMachine v'

/-- R196: the outcome does not depend on the schedule. If one interleaving reaches, after n steps, a state in which no engine can
step (the run has ended, or is stuck), then every interleaving has taken at most n steps, and can be continued to reach the same
machine after n steps in all. -/
def Obligations.OutcomeIndependentOfSchedule : Prop :=
  ∀ (s t u : State) (n m : Nat), s.Inv → State.Runs n s t → (∀ i, t.enabled i = false) → State.Runs m s u →
    m ≤ n ∧ ∃ v, State.Runs (n - m) u v ∧ t.SameMachine v
end

