-- ==== Sys2Proof/Laws/Decode.lean ====
section
/-! SUPPORT. What the pieces of the decoder answer, and what the fields of a canonical instruction word are. -/

namespace Sys2Proof

@[simp] theorem Opcode.mem_all (o : Opcode) : o ∈ Opcode.all := by cases o <;> decide

/-- Different opcodes have different numbers. -/
theorem Opcode.code_inj {o p : Opcode} (h : o.code = p.code) : o = p := by
  cases o <;> cases p <;> first | rfl | exact absurd h (by decide)

/-- Everything the opcode lookup answers (R87, R91). -/
theorem Opcode.ofInt?_eq_some (z : Int) (o : Opcode) : Opcode.ofInt? z = some o ↔ z = o.code := by
  constructor
  · intro h
    simpa using List.find?_some h
  · rintro rfl
    cases h : Opcode.ofInt? (o.code : Int) with
    | none =>
      have := List.find?_eq_none.1 h o (Opcode.mem_all o)
      simp at this
    | some p =>
      have hp : (o.code : Int) = p.code := by simpa using List.find?_some h
      rw [Opcode.code_inj (Int.ofNat_inj.1 hp)]

theorem Opcode.ofInt?_eq_none (z : Int) : Opcode.ofInt? z = none ↔ ∀ o : Opcode, z ≠ o.code := by
  constructor
  · intro h o ho
    rw [(Opcode.ofInt?_eq_some z o).2 ho] at h
    cases h
  · intro h
    cases hh : Opcode.ofInt? z with
    | none => rfl
    | some o => exact absurd ((Opcode.ofInt?_eq_some z o).1 hh) (h o)

/-- The digit of a mode (R85). -/
def Mode.digit : Mode → Nat
  | .position => 0
  | .immediate => 1

@[simp] theorem Mode.src_digit (m : Mode) (p : Word) : (m.src p).digit = m.digit := by cases m <;> rfl

@[simp] theorem Mode.src_word (m : Mode) (p : Word) : (m.src p).word = p := by cases m <;> rfl

/-- Everything the mode lookup answers (R85, R88). -/
theorem Mode.ofDigit?_eq_some (z : Int) (m : Mode) : Mode.ofDigit? z = some m ↔ z = m.digit := by
  unfold Mode.ofDigit?
  cases m with
  | position =>
    by_cases h : z = 0
    · simp [h, Mode.digit]
    · by_cases h1 : z = 1 <;> simp [h, h1, Mode.digit]
  | immediate =>
    by_cases h : z = 0
    · simp [h, Mode.digit]
    · by_cases h1 : z = 1 <;> simp [h, h1, Mode.digit]

theorem Mode.ofDigit?_eq_none (z : Int) : Mode.ofDigit? z = none ↔ z ≠ 0 ∧ z ≠ 1 := by
  unfold Mode.ofDigit?
  by_cases h : z = 0
  · simp [h]
  · by_cases h1 : z = 1 <;> simp [h, h1]

@[simp] theorem Mode.ofDigit?_zero : Mode.ofDigit? 0 = some .position := rfl
@[simp] theorem Mode.ofDigit?_one : Mode.ofDigit? 1 = some .immediate := rfl

/-- The mode of a source operand. -/
def Src.mode : Src → Mode
  | .pos _ => .position
  | .imm _ => .immediate

@[simp] theorem Src.mode_src (a : Src) : a.mode.src a.word = a := by cases a <;> rfl
@[simp] theorem Src.mode_digit (a : Src) : a.mode.digit = a.digit := by cases a <;> rfl
@[simp] theorem Src.ofDigit?_digit (a : Src) : Mode.ofDigit? (a.digit : Int) = some a.mode := by cases a <;> rfl

/-- The fields of a canonical instruction word are its opcode and its mode digits (R81, R96). -/
theorem decodeFields_canonicalWord (o : Opcode) (m n : Nat) (hm : m < 2) (hn : n < 2) :
    decodeFields (canonicalWord o m n) = ⟨o.code, m, n, 0⟩ := by
  have hm : m = 0 ∨ m = 1 := by omega
  have hn : n = 0 ∨ n = 1 := by omega
  rcases hm with rfl | rfl <;> rcases hn with rfl | rfl <;> cases o <;> decide

theorem Src.digit_lt (a : Src) : a.digit < 2 := by cases a <;> simp [Src.digit]

/-- Decoding a word with a valid opcode field goes on to the operands of that opcode. -/
theorem decode_of_opcode {w : Word} {o : Opcode} (h : (decodeFields w).opcode = o.code) (ps : List Word) :
    decode (w :: ps) = decodeOperands o (decodeFields w) ps := by
  simp only [decode, (Opcode.ofInt?_eq_some _ o).2 h]

/-- A word with no valid opcode field is rejected, whatever follows (R87). -/
theorem decode_of_no_opcode {w : Word} (h : ∀ o : Opcode, (decodeFields w).opcode ≠ o.code) (ps : List Word) :
    decode (w :: ps) = .error .invalidOpcode := by
  simp only [decode, (Opcode.ofInt?_eq_none _).2 h]

/-- `opcodeOk` says that some opcode has the field's number. -/
theorem Fields.opcodeOk_iff (f : Fields) : f.opcodeOk = true ↔ ∃ o : Opcode, f.opcode = o.code := by
  simp [Fields.opcodeOk]

theorem modeOk_iff (z : Int) : modeOk z = true ↔ z = 0 ∨ z = 1 := by
  simp [modeOk]

/-- `modesOk` says that the digits the opcode consults are 0 or 1 (R88). -/
theorem Fields.modesOk_iff (f : Fields) : f.modesOk = true ↔ ∀ o : Opcode, f.opcode = o.code →
    (1 ≤ o.sources → f.mode0 = 0 ∨ f.mode0 = 1) ∧ (2 ≤ o.sources → f.mode1 = 0 ∨ f.mode1 = 1) := by
  simp only [Fields.modesOk, List.all_eq_true, Opcode.mem_all, forall_const, Bool.or_eq_true, Bool.and_eq_true,
    decide_eq_true_eq, modeOk_iff]
  refine forall_congr' fun o => ?_
  by_cases h : f.opcode = o.code
  · simp only [h, ne_eq, not_true_eq_false, false_or, forall_const]
    constructor
    · rintro ⟨h0, h1⟩
      exact ⟨fun k => h0.resolve_left (by omega), fun k => h1.resolve_left (by omega)⟩
    · rintro ⟨h0, h1⟩
      refine ⟨?_, ?_⟩
      · by_cases k : o.sources < 1
        · exact .inl k
        · exact .inr (h0 (by omega))
      · by_cases k : o.sources < 2
        · exact .inl k
        · exact .inr (h1 (by omega))
  · simp [h]

end Sys2Proof
end

