-- ==== Sys2Proof/Laws/Memory.lean ====
section
/-! SUPPORT. What the memory operations do: a write is read back, leaves every other address alone, and keeps the
canonical form. None of these needs a canonical memory to start from, but for those that say the form is kept. -/

namespace Sys2Proof.Machine

theorem lookupCell_insertCell (cs : List (Nat × Word)) (a b : Nat) (v : Word) :
    lookupCell (insertCell cs a v) b = if b = a then v else lookupCell cs b := by
  induction cs with
  | nil => simp [insertCell, lookupCell]
  | cons c cs ih =>
    obtain ⟨k, w⟩ := c
    unfold insertCell
    split
    · simp [lookupCell]
    · split
      · subst k
        simp only [lookupCell]
        split <;> rfl
      · simp only [lookupCell, ih]
        split <;> split <;> simp_all

theorem lookupCell_filter (cs : List (Nat × Word)) (a b : Nat) :
    lookupCell (cs.filter fun c => c.1 ≠ a) b = if b = a then Memory.unlisted else lookupCell cs b := by
  induction cs with
  | nil => simp [lookupCell]
  | cons c cs ih =>
    obtain ⟨k, w⟩ := c
    by_cases h : k = a
    · subst h
      simp only [ne_eq, not_true_eq_false, decide_false, Bool.false_eq_true, not_false_eq_true, List.filter_cons_of_neg]
      rw [ih]
      simp only [lookupCell]
      split <;> simp_all
    · have hf : ((k, w) :: cs).filter (fun c => c.1 ≠ a) = (k, w) :: cs.filter (fun c => c.1 ≠ a) := by simp [h]
      rw [hf]
      simp only [lookupCell, ih]
      split <;> split <;> simp_all

theorem lookupCell_setCell (cs : List (Nat × Word)) (a b : Nat) (v : Word) :
    lookupCell (setCell cs a v) b = if b = a then v else lookupCell cs b := by
  unfold setCell
  split
  · rw [lookupCell_filter]; simp_all
  · exact lookupCell_insertCell cs a b v

@[simp] theorem Memory.poke_size (m : Memory) (a : Nat) (v : Word) : (m.poke a v).size = m.size := rfl

@[simp] theorem Memory.poke_inBounds (m : Memory) (a : Nat) (v x : Word) : (m.poke a v).inBounds x = m.inBounds x := rfl

theorem Memory.peek_poke (m : Memory) (a b : Nat) (v : Word) :
    (m.poke a v).peek b = if b = a then v else m.peek b :=
  lookupCell_setCell m.cells a b v

theorem Memory.inBounds_iff (m : Memory) (a : Word) :
    m.inBounds a = true ↔ 0 ≤ a.toInt ∧ a.toInt < m.size := by
  simp [Memory.inBounds]

/-- Two addresses in bounds that name the same cell are the same word. -/
theorem Memory.addr_inj {a b : Word} (ha : 0 ≤ a.toInt) (hb : 0 ≤ b.toInt) (h : a.toInt.toNat = b.toInt.toNat) :
    a = b := by
  apply BitVec.eq_of_toInt_eq
  omega

/-- Everything a read of one word can answer (R52). -/
theorem Memory.read?_eq_some (m : Memory) (a v : Word) :
    m.read? a = some v ↔ m.inBounds a = true ∧ m.peek a.toInt.toNat = v := by
  unfold Memory.read?
  split <;> simp_all

theorem Memory.read?_eq_none (m : Memory) (a : Word) : m.read? a = none ↔ m.inBounds a = false := by
  unfold Memory.read?
  split <;> simp_all

/-- Everything a write of one word can answer (R53). -/
theorem Memory.write?_eq_some (m : Memory) (a v : Word) (m' : Memory) :
    m.write? a v = some m' ↔ m.inBounds a = true ∧ m' = m.poke a.toInt.toNat v := by
  unfold Memory.write?
  split
  · rename_i h
    simp only [h, true_and, Option.some.injEq]
    exact eq_comm
  · rename_i h
    simp [h]

theorem Memory.write?_eq_none (m : Memory) (a v : Word) : m.write? a v = none ↔ m.inBounds a = false := by
  unfold Memory.write?
  split <;> simp_all

/-- What a poke leaves of a read of any address. -/
theorem Memory.read?_poke (m : Memory) {a : Word} (v b : Word) (ha : m.inBounds a = true) :
    (m.poke a.toInt.toNat v).read? b = if b = a then some v else m.read? b := by
  have h0 := ((m.inBounds_iff a).1 ha).1
  unfold Memory.read?
  rw [Memory.poke_inBounds, Memory.peek_poke]
  by_cases hb : m.inBounds b = true
  · have hb0 := ((m.inBounds_iff b).1 hb).1
    by_cases hab : b = a
    · simp [hab, ha]
    · have : b.toInt.toNat ≠ a.toInt.toNat := fun h => hab (Memory.addr_inj hb0 h0 h)
      simp [hb, hab, this]
  · have hab : b ≠ a := by rintro rfl; exact hb ha
    simp [hb, hab]

/-! ### The canonical form -/

theorem mem_insertCell {cs : List (Nat × Word)} {a : Nat} {v : Word} {c : Nat × Word} (h : c ∈ insertCell cs a v) :
    c = (a, v) ∨ c ∈ cs := by
  induction cs with
  | nil => simp_all [insertCell]
  | cons d cs ih =>
    obtain ⟨k, w⟩ := d
    unfold insertCell at h
    split at h
    · simp_all
    · split at h
      · simp_all; tauto
      · rcases List.mem_cons.1 h with rfl | h
        · simp
        · rcases ih h with h | h <;> simp [h]

theorem insertCell_rising {cs : List (Nat × Word)} (a : Nat) (v : Word)
    (h : cs.Pairwise fun c d => c.1 < d.1) : (insertCell cs a v).Pairwise fun c d => c.1 < d.1 := by
  induction cs with
  | nil => simp [insertCell]
  | cons d cs ih =>
    obtain ⟨k, w⟩ := d
    rw [List.pairwise_cons] at h
    unfold insertCell
    split
    · rename_i hk
      refine List.pairwise_cons.2 ⟨?_, List.pairwise_cons.2 h⟩
      intro c hc
      rcases List.mem_cons.1 hc with rfl | hc
      · exact hk
      · exact lt_trans hk (h.1 c hc)
    · split
      · rename_i hk
        subst hk
        exact List.pairwise_cons.2 h
      · refine List.pairwise_cons.2 ⟨?_, ih h.2⟩
        intro c hc
        rcases mem_insertCell hc with rfl | hc
        · show k < a; omega
        · exact h.1 c hc

theorem Memory.poke_wf {m : Memory} {a : Nat} (v : Word) (h : m.wf) (ha : a < m.size) : (m.poke a v).wf := by
  obtain ⟨hr, hc⟩ := h
  unfold Memory.wf Memory.poke setCell
  split
  · exact ⟨hr.filter _, fun c h => hc c (List.mem_of_mem_filter h)⟩
  · rename_i hv
    refine ⟨insertCell_rising a v hr, fun c h => ?_⟩
    rcases mem_insertCell h with rfl | h
    · exact ⟨hv, ha⟩
    · exact hc c h

/-- A write keeps the canonical form. -/
theorem Memory.write?_wf {m m' : Memory} {a v : Word} (h : m.wf) (hw : m.write? a v = some m') : m'.wf := by
  obtain ⟨hb, rfl⟩ := (m.write?_eq_some a v m').1 hw
  have := (m.inBounds_iff a).1 hb
  exact Memory.poke_wf v h (by omega)

/-- Growing the image keeps the canonical form. -/
theorem Memory.grow_wf {m : Memory} {n : Nat} (h : m.wf) (hn : m.size ≤ n) : ({ m with size := n } : Memory).wf :=
  ⟨h.1, fun c hc => ⟨(h.2 c hc).1, lt_of_lt_of_le (h.2 c hc).2 hn⟩⟩

theorem lookupCell_eq_unlisted_of_forall_ne {cs : List (Nat × Word)} {a : Nat} (h : ∀ c ∈ cs, c.1 ≠ a) :
    lookupCell cs a = Memory.unlisted := by
  induction cs with
  | nil => rfl
  | cons c cs ih =>
    obtain ⟨k, w⟩ := c
    have hk : a ≠ k := fun e => h (k, w) (by simp) e.symm
    simp only [lookupCell, hk, if_false]
    exact ih fun c hc => h c (by simp [hc])

/-- Equal memories are equal data: two canonical lists that read alike at every address are the same list. -/
theorem cells_ext {cs ds : List (Nat × Word)} (hc : cs.Pairwise fun c d => c.1 < d.1)
    (hd : ds.Pairwise fun c d => c.1 < d.1) (nc : ∀ c ∈ cs, c.2 ≠ Memory.unlisted) (nd : ∀ d ∈ ds, d.2 ≠ Memory.unlisted)
    (h : ∀ a, lookupCell cs a = lookupCell ds a) : cs = ds := by
  induction cs generalizing ds with
  | nil =>
    cases ds with
    | nil => rfl
    | cons d ds =>
      have := h d.1
      simp [lookupCell] at this
      exact absurd this.symm (nd d (by simp))
  | cons c cs ih =>
    cases ds with
    | nil =>
      have := h c.1
      simp [lookupCell] at this
      exact absurd this (nc c (by simp))
    | cons d ds =>
      obtain ⟨k, w⟩ := c
      obtain ⟨l, x⟩ := d
      rw [List.pairwise_cons] at hc hd
      have hkl : k = l := by
        rcases lt_trichotomy k l with hlt | heq | hlt
        · have h1 := h k
          have h2 : lookupCell ((l, x) :: ds) k = Memory.unlisted := by
            apply lookupCell_eq_unlisted_of_forall_ne
            intro c hc'
            rcases List.mem_cons.1 hc' with rfl | hc'
            · exact fun e => by simp at e; omega
            · have := hd.1 c hc'; simp at this; omega
          rw [h2] at h1
          simp [lookupCell] at h1
          exact absurd h1 (nc (k, w) (by simp))
        · exact heq
        · have h1 := h l
          have h2 : lookupCell ((k, w) :: cs) l = Memory.unlisted := by
            apply lookupCell_eq_unlisted_of_forall_ne
            intro c hc'
            rcases List.mem_cons.1 hc' with rfl | hc'
            · exact fun e => by simp at e; omega
            · have := hc.1 c hc'; simp at this; omega
          rw [h2] at h1
          simp [lookupCell] at h1
          exact absurd h1.symm (nd (l, x) (by simp))
      subst hkl
      have hw : w = x := by simpa [lookupCell] using h k
      subst hw
      have : cs = ds := by
        apply ih hc.2 hd.2 (fun c hc => nc c (by simp [hc])) (fun d hd => nd d (by simp [hd]))
        intro a
        have h1 := h a
        by_cases hak : a = k
        · subst hak
          rw [lookupCell_eq_unlisted_of_forall_ne (fun c hc' => by have := hc.1 c hc'; simp at this; omega),
            lookupCell_eq_unlisted_of_forall_ne (fun d hd' => by have := hd.1 d hd'; simp at this; omega)]
        · simpa [lookupCell, hak] using h1
      rw [this]

end Sys2Proof.Machine
end

