-- ==== Sys2Proof/Laws/State.lean ====
section
/-! SUPPORT. One lemma per field per update of the state, of an engine and of a link, so that no proof unfolds a record
update; and what looking up an engine or a link after an update gives. -/

namespace Sys2Proof.Machine

variable (s : State) (e f : Engine) (l : Link) (i k n : Nat) (v w : Word) (ev : Event) (r : RunState)

/-! ### `State.putEngine` -/

@[simp] theorem State.putEngine_engines : (s.putEngine e).engines = s.engines.set s.cur e := rfl
@[simp] theorem State.putEngine_links : (s.putEngine e).links = s.links := rfl
@[simp] theorem State.putEngine_topology : (s.putEngine e).topology = s.topology := rfl
@[simp] theorem State.putEngine_cur : (s.putEngine e).cur = s.cur := rfl
@[simp] theorem State.putEngine_sched : (s.putEngine e).sched = s.sched := rfl
@[simp] theorem State.putEngine_picks : (s.putEngine e).picks = s.picks := rfl

theorem State.engine?_putEngine (h : s.engine? s.cur = some f) :
    (s.putEngine e).engine? i = if i = s.cur then some e else s.engine? i := by
  have hlt : s.cur < s.engines.length := by
    have h' : s.engines[s.cur]? = some f := h
    exact (List.getElem?_eq_some_iff.1 h').1
  unfold State.engine?
  simp only [State.putEngine_engines]
  by_cases hi : i = s.cur
  · subst hi; simp [hlt]
  · simp [hi, List.getElem?_set_ne (Ne.symm hi)]

theorem State.engine?_putEngine_ne (h : i ≠ s.cur) : (s.putEngine e).engine? i = s.engine? i := by
  unfold State.engine?
  simp [List.getElem?_set_ne (Ne.symm h)]

theorem State.putEngine_self (h : s.engine? s.cur = some e) : s.putEngine e = s := by
  have h' : s.engines[s.cur]? = some e := h
  obtain ⟨hlt, rfl⟩ := List.getElem?_eq_some_iff.1 h'
  unfold State.putEngine
  rw [List.set_getElem_self]

/-! ### `State.chosen` -/

@[simp] theorem State.chosen_engines : s.chosen.engines = s.engines := rfl
@[simp] theorem State.chosen_links : s.chosen.links = s.links := rfl
@[simp] theorem State.chosen_topology : s.chosen.topology = s.topology := rfl
@[simp] theorem State.chosen_cur : s.chosen.cur = s.cur := rfl
@[simp] theorem State.chosen_sched : s.chosen.sched = s.sched.tail := rfl
@[simp] theorem State.chosen_picks : s.chosen.picks = s.picks + 1 := rfl
@[simp] theorem State.chosen_engine? : s.chosen.engine? i = s.engine? i := rfl
@[simp] theorem State.chosen_link? : s.chosen.link? k = s.link? k := rfl

/-! ### Lookups do not see the fields they do not read -/

@[simp] theorem State.engine?_mk (es : List Engine) (ls : List Link) (t : Topology) (c : Nat) (sc : List Nat) (p : Nat) :
    (State.mk es ls t c sc p).engine? i = es[i]? := rfl
@[simp] theorem State.link?_mk (es : List Engine) (ls : List Link) (t : Topology) (c : Nat) (sc : List Nat) (p : Nat) :
    (State.mk es ls t c sc p).link? k = ls[k]? := rfl
@[simp] theorem State.putEngine_link? : (s.putEngine e).link? k = s.link? k := rfl

/-! ### `Engine.advance` and `Engine.traced` -/

@[simp] theorem Engine.advance_mem : (e.advance n).mem = e.mem := rfl
@[simp] theorem Engine.advance_ip : (e.advance n).ip = wrap (e.ip.toInt + n) := rfl
@[simp] theorem Engine.advance_run : (e.advance n).run = e.run := rfl
@[simp] theorem Engine.advance_vmid : (e.advance n).vmid = e.vmid := rfl
@[simp] theorem Engine.advance_source : (e.advance n).source = e.source := rfl
@[simp] theorem Engine.advance_sink : (e.advance n).sink = e.sink := rfl
@[simp] theorem Engine.advance_phase : (e.advance n).phase = e.phase := rfl
@[simp] theorem Engine.advance_ibuf : (e.advance n).ibuf = e.ibuf := rfl
@[simp] theorem Engine.advance_ipos : (e.advance n).ipos = e.ipos := rfl
@[simp] theorem Engine.advance_obuf : (e.advance n).obuf = e.obuf := rfl
@[simp] theorem Engine.advance_debug : (e.advance n).debug = e.debug := rfl
@[simp] theorem Engine.advance_trace : (e.advance n).trace = e.trace := rfl

@[simp] theorem Engine.traced_mem : (e.traced ev).mem = e.mem := rfl
@[simp] theorem Engine.traced_ip : (e.traced ev).ip = e.ip := rfl
@[simp] theorem Engine.traced_run : (e.traced ev).run = e.run := rfl
@[simp] theorem Engine.traced_vmid : (e.traced ev).vmid = e.vmid := rfl
@[simp] theorem Engine.traced_source : (e.traced ev).source = e.source := rfl
@[simp] theorem Engine.traced_sink : (e.traced ev).sink = e.sink := rfl
@[simp] theorem Engine.traced_phase : (e.traced ev).phase = e.phase := rfl
@[simp] theorem Engine.traced_ibuf : (e.traced ev).ibuf = e.ibuf := rfl
@[simp] theorem Engine.traced_ipos : (e.traced ev).ipos = e.ipos := rfl
@[simp] theorem Engine.traced_obuf : (e.traced ev).obuf = e.obuf := rfl
@[simp] theorem Engine.traced_debug : (e.traced ev).debug = e.debug := rfl
@[simp] theorem Engine.traced_trace : (e.traced ev).trace = if e.debug then e.trace ++ [ev] else e.trace := rfl

/-! ### `Link.write` -/

@[simp] theorem Link.write_q : (l.write v).q = l.q ++ [v] := rfl
@[simp] theorem Link.write_closed : (l.write v).closed = l.closed := rfl
@[simp] theorem Link.write_last : (l.write v).last = some v := rfl
@[simp] theorem Link.write_wcount : (l.write v).wcount = l.wcount + 1 := rfl

/-! ### `State.acting?` -/

/-- Everything `acting?` can answer (R25). -/
theorem State.acting?_eq_some : s.acting? = some e ↔ s.engine? s.cur = some e ∧ e.run = .running := by
  unfold State.acting?
  cases h : s.engine? s.cur with
  | none => simp
  | some f =>
    by_cases hf : f.run = .running
    · simp only [hf, if_true, Option.some.injEq]
      exact ⟨fun h => ⟨h, h ▸ hf⟩, fun h => h.1⟩
    · simp only [hf, if_false, Option.some.injEq, reduceCtorEq, false_iff, not_and]
      rintro rfl
      exact hf

/-! ### `closedLinks` -/

@[simp] theorem closedLinks_buffer (ls : List Link) : closedLinks ls .buffer = ls := rfl

@[simp] theorem closedLinks_length (ls : List Link) (d : Sink) : (closedLinks ls d).length = ls.length := by
  cases d with
  | buffer => rfl
  | link k => simp only [closedLinks]; split <;> simp

theorem closedLinks_get (ls : List Link) (d : Sink) :
    (closedLinks ls d)[k]? = if d = .link k then ls[k]?.map fun l => { l with closed := true } else ls[k]? := by
  cases d with
  | buffer => simp
  | link j =>
    simp only [closedLinks, Sink.link.injEq]
    cases h : ls[j]? with
    | none => by_cases hjk : j = k <;> simp_all
    | some l =>
      by_cases hjk : j = k
      · subst hjk
        obtain ⟨hlt, rfl⟩ := List.getElem?_eq_some_iff.1 h
        simp [hlt]
      · simp [hjk]

end Sys2Proof.Machine
end

