-- ==== Sys2Proof/Laws/Moves.lean ====
section
/-! SUPPORT. Say once what an instruction can do: if `exec` answers a next state, the acting engine and the links made one
of the ten moves of `Move`, and nothing else changed. Every frame and every invariant follows from this. -/

namespace Sys2Proof.Machine

/-- What running one instruction can do to the acting engine `e` and to the links `ls`. -/
inductive Move (ls : List Link) (e : Engine) : Engine → List Link → Prop where
  /-- ADD, MUL, LT, EQ complete. -/
  | store (a v : Word) (h : e.mem.inBounds a = true) :
      Move ls e (({ e with mem := e.mem.poke a.toInt.toNat v } : Engine).advance 4) ls
  /-- JNZ, JZ take the jump. -/
  | jump (y : Word) : Move ls e { e with ip := y } ls
  /-- JNZ, JZ fall through. -/
  | fall : Move ls e (e.advance 3) ls
  /-- IN stalls. -/
  | stall (h : e.chanRead ls = .stall) : Move ls e e ls
  /-- IN takes the starting phase. -/
  | phase (a v : Word) (h : e.mem.inBounds a = true) (hp : e.phase = .pending v) :
      Move ls e ((({ e with phase := .consumed v, mem := e.mem.poke a.toInt.toNat v } : Engine).advance 2).traced
        (.input v)) ls
  /-- IN reads the input buffer. -/
  | buffer (a v : Word) (h : e.mem.inBounds a = true) (hs : e.source = .buffer) (hv : e.ibuf[e.ipos]? = some v) :
      Move ls e ((({ e with ipos := e.ipos + 1, mem := e.mem.poke a.toInt.toNat v } : Engine).advance 2).traced
        (.input v)) ls
  /-- IN pops its link. -/
  | pop (a v : Word) (k : Nat) (l : Link) (rest : List Word) (h : e.mem.inBounds a = true) (hs : e.source = .link k)
      (hl : ls[k]? = some l) (hq : l.q = v :: rest) :
      Move ls e ((({ e with mem := e.mem.poke a.toInt.toNat v } : Engine).advance 2).traced (.input v))
        (ls.set k { l with q := rest })
  /-- OUT appends to the output buffer. -/
  | emit (v : Word) (hs : e.sink = .buffer) :
      Move ls e ((({ e with obuf := e.obuf ++ [v] } : Engine).advance 2).traced (.output v)) ls
  /-- OUT writes its link. -/
  | push (v : Word) (k : Nat) (l : Link) (hs : e.sink = .link k) (hl : ls[k]? = some l) :
      Move ls e ((e.advance 2).traced (.output v)) (ls.set k (l.write v))
  /-- HLT, or a fault. -/
  | stop (r : RunState) (hr : r ≠ .running) (hf : ∀ k a, r = .faulted k a → a = e.ip ∧ k ≠ .decodeFault) :
      Move ls e { e with run := r } (closedLinks ls e.sink)

/-- Fault entry is a move. -/
theorem Move.raise (ls : List Link) (e : Engine) (k : FaultKind) (hk : k ≠ .decodeFault) :
    Move ls e { e with run := .faulted k e.ip } (closedLinks ls e.sink) :=
  .stop _ (by simp) (by rintro k' a h; cases h; exact ⟨rfl, hk⟩)

/-- Everything a three-operand instruction can do to its engine. -/
theorem Engine.threeOperand_cases (f : Word → Word → Word) (a b : Src) (dst : Word) (e : Engine) :
    Engine.threeOperand f a b dst e = .error .outOfBounds ∨
    ∃ x y, e.val? a = some x ∧ e.val? b = some y ∧ e.mem.inBounds dst = true ∧
      Engine.threeOperand f a b dst e
        = .ok (({ e with mem := e.mem.poke dst.toInt.toNat (f x y) } : Engine).advance 4) := by
  unfold Engine.threeOperand
  cases ha : e.val? a with
  | none => simp
  | some x =>
    cases hb : e.val? b with
    | none => simp
    | some y =>
      cases hw : e.mem.write? dst (f x y) with
      | none => exact .inl (by simp only [hw])
      | some m =>
        obtain ⟨hd, rfl⟩ := (e.mem.write?_eq_some dst (f x y) m).1 hw
        exact .inr ⟨x, y, rfl, rfl, hd, by simp only [hw]⟩

/-- Everything a jump can do to its engine. -/
theorem Engine.jumpIf_cases (cond : Word → Bool) (a t : Src) (e : Engine) :
    Engine.jumpIf cond a t e = .error .outOfBounds ∨
    (∃ x y, e.val? a = some x ∧ cond x = true ∧ e.val? t = some y ∧ Engine.jumpIf cond a t e = .ok { e with ip := y }) ∨
    ∃ x, e.val? a = some x ∧ cond x = false ∧ Engine.jumpIf cond a t e = .ok (e.advance 3) := by
  unfold Engine.jumpIf
  cases ha : e.val? a with
  | none => simp
  | some x =>
    cases hc : cond x with
    | false => simp [hc]
    | true =>
      cases ht : e.val? t with
      | none => simp [hc]
      | some y => exact .inr (.inl ⟨x, y, rfl, hc, rfl, by simp [hc]⟩)

/-- Everything reading the input stream can answer with a word (R112, R113, R114). -/
theorem Engine.chanRead_word {e e' : Engine} {ls ls' : List Link} {v : Word} (h : e.chanRead ls = .word v e' ls') :
    (e.phase = .pending v ∧ e' = { e with phase := .consumed v } ∧ ls' = ls) ∨
    (e.phasePending = false ∧ e.source = .buffer ∧ e.ibuf[e.ipos]? = some v ∧ e' = { e with ipos := e.ipos + 1 } ∧ ls' = ls) ∨
    ∃ k l rest, e.phasePending = false ∧ e.source = .link k ∧ ls[k]? = some l ∧ l.q = v :: rest ∧ e' = e ∧
      ls' = ls.set k { l with q := rest } := by
  unfold Engine.chanRead at h
  split at h
  · rename_i w hp
    cases h
    exact .inl ⟨hp, rfl, rfl⟩
  · rename_i hp
    have hpp : e.phasePending = false := by
      unfold Engine.phasePending
      split
      · rename_i w hw; exact absurd hw (hp w)
      · rfl
    split at h
    · rename_i hs
      simp only [Engine.bufferRead] at h
      split at h
      · rename_i w hw
        cases h
        exact .inr (.inl ⟨hpp, hs, hw, rfl, rfl⟩)
      · cases h
    · rename_i k hs
      simp only [Engine.linkRead] at h
      split at h
      · cases h
      · rename_i l hl
        split at h
        · rename_i w rest hq
          cases h
          exact .inr (.inr ⟨k, l, rest, hpp, hs, hl, hq, rfl, rfl⟩)
        · split at h <;> cases h

/-- When an input stream cannot deliver, and how (R113, R114). -/
theorem Engine.chanRead_fault {e : Engine} {ls : List Link} {k : FaultKind} (h : e.chanRead ls = .fault k) :
    e.phasePending = false ∧
    ((e.source = .buffer ∧ e.ibuf[e.ipos]? = none ∧ k = .inputExhausted) ∨
     ∃ j l, e.source = .link j ∧ ls[j]? = some l ∧ l.q = [] ∧ l.closed = true ∧ k = .channelClosed) := by
  unfold Engine.chanRead at h
  split at h
  · cases h
  · rename_i hp
    refine ⟨?_, ?_⟩
    · unfold Engine.phasePending
      split
      · rename_i w hw; exact absurd hw (hp w)
      · rfl
    cases hs : e.source with
    | buffer =>
      rw [hs] at h
      simp only [Engine.bufferRead] at h
      split at h
      · cases h
      · rename_i hw
        cases h
        exact .inl ⟨rfl, hw, rfl⟩
    | link j =>
      rw [hs] at h
      simp only [Engine.linkRead] at h
      split at h
      · cases h
      · rename_i l hl
        split at h
        · cases h
        · rename_i hq
          split at h
          · rename_i hc
            cases h
            exact .inr ⟨j, l, rfl, hl, hq, hc, rfl⟩
          · cases h

/-- When an IN stalls: no phase is pending, the input link is empty and open (R114, R115). -/
theorem Engine.chanRead_stall_iff {e : Engine} {ls : List Link} :
    e.chanRead ls = .stall ↔ e.phasePending = false ∧ ∃ k l, e.source = .link k ∧ ls[k]? = some l ∧ l.q = [] ∧ l.closed = false := by
  unfold Engine.chanRead Engine.phasePending
  split
  · simp
  · cases hs : e.source with
    | buffer =>
      simp only [Engine.bufferRead]
      split <;> simp
    | link k =>
      simp only [Engine.linkRead]
      cases hl : ls[k]? with
      | none => simp [hl]
      | some l =>
        cases hq : l.q with
        | cons v rest => simp [hl, hq]
        | nil => cases hc : l.closed <;> simp [hl, hq, hc]

/-- Everything emitting a word can answer (R116, R117, R118). -/
theorem Engine.chanWrite_some {e e' : Engine} {ls ls' : List Link} {v : Word} (h : e.chanWrite ls v = some (e', ls')) :
    (e.sink = .buffer ∧ e' = { e with obuf := e.obuf ++ [v] } ∧ ls' = ls) ∨
    ∃ k l, e.sink = .link k ∧ ls[k]? = some l ∧ e' = e ∧ ls' = ls.set k (l.write v) := by
  unfold Engine.chanWrite at h
  cases hs : e.sink with
  | buffer =>
    rw [hs] at h
    cases h
    exact .inl ⟨rfl, rfl, rfl⟩
  | link k =>
    rw [hs] at h
    simp only at h
    split at h
    · cases h
    · rename_i l hl
      cases h
      exact .inr ⟨k, l, rfl, hl, rfl, rfl⟩

/-- Everything `onEngine` can answer with a next state. -/
theorem State.onEngine_next {s t : State} {f : Engine → Except FaultKind Engine} (h : s.onEngine f = .next t) :
    ∃ e, s.acting? = some e ∧ ((∃ e', f e = .ok e' ∧ t = s.putEngine e') ∨ ∃ k, f e = .error k ∧ t = s.raise e k) := by
  unfold State.onEngine at h
  split at h
  · cases h
  · rename_i e he
    refine ⟨e, he, ?_⟩
    split at h
    · rename_i e' hf
      cases h
      exact .inl ⟨e', hf, rfl⟩
    · rename_i k hf
      cases h
      exact .inr ⟨k, hf, rfl⟩

/-- The state after a move of the acting engine. -/
def State.moved (s : State) (e' : Engine) (ls' : List Link) : State :=
  ({ s with links := ls' } : State).putEngine e'

@[simp] theorem State.moved_engines (s : State) (e' : Engine) (ls' : List Link) :
    (s.moved e' ls').engines = s.engines.set s.cur e' := rfl
@[simp] theorem State.moved_links (s : State) (e' : Engine) (ls' : List Link) : (s.moved e' ls').links = ls' := rfl
@[simp] theorem State.moved_topology (s : State) (e' : Engine) (ls' : List Link) :
    (s.moved e' ls').topology = s.topology := rfl
@[simp] theorem State.moved_cur (s : State) (e' : Engine) (ls' : List Link) : (s.moved e' ls').cur = s.cur := rfl
@[simp] theorem State.moved_sched (s : State) (e' : Engine) (ls' : List Link) : (s.moved e' ls').sched = s.sched := rfl
@[simp] theorem State.moved_picks (s : State) (e' : Engine) (ls' : List Link) : (s.moved e' ls').picks = s.picks := rfl

theorem State.putEngine_eq_moved (s : State) (e' : Engine) : s.putEngine e' = s.moved e' s.links := rfl

theorem State.raise_eq_moved (s : State) (e : Engine) (k : FaultKind) :
    s.raise e k = s.moved { e with run := .faulted k e.ip } (closedLinks s.links e.sink) := rfl

theorem State.terminate_eq_moved (s : State) (e : Engine) (r : RunState) :
    s.terminate e r = s.moved { e with run := r } (closedLinks s.links e.sink) := rfl

theorem State.onEngine_threeOperand_move {s t : State} {f : Word → Word → Word} {a b : Src} {dst : Word}
    (h : s.onEngine (Engine.threeOperand f a b dst) = .next t) :
    ∃ e e' ls', s.acting? = some e ∧ Move s.links e e' ls' ∧ t = s.moved e' ls' := by
  obtain ⟨e, he, ⟨e', hf, rfl⟩ | ⟨k, hf, rfl⟩⟩ := State.onEngine_next h
  · obtain hc | ⟨x, y, -, -, hd, hc⟩ := Engine.threeOperand_cases f a b dst e
    · rw [hc] at hf; cases hf
    · rw [hc] at hf; cases hf
      exact ⟨e, _, _, he, .store dst _ hd, rfl⟩
  · obtain hc | ⟨x, y, -, -, hd, hc⟩ := Engine.threeOperand_cases f a b dst e
    · rw [hc] at hf; cases hf
      exact ⟨e, _, _, he, Move.raise _ _ _ (by simp), rfl⟩
    · rw [hc] at hf; cases hf

theorem State.onEngine_jumpIf_move {s t : State} {cond : Word → Bool} {a b : Src}
    (h : s.onEngine (Engine.jumpIf cond a b) = .next t) :
    ∃ e e' ls', s.acting? = some e ∧ Move s.links e e' ls' ∧ t = s.moved e' ls' := by
  obtain ⟨e, he, ⟨e', hf, rfl⟩ | ⟨k, hf, rfl⟩⟩ := State.onEngine_next h
  · obtain hc | ⟨x, y, -, -, -, hc⟩ | ⟨x, -, -, hc⟩ := Engine.jumpIf_cases cond a b e
    · rw [hc] at hf; cases hf
    · rw [hc] at hf; cases hf
      exact ⟨e, _, _, he, .jump y, rfl⟩
    · rw [hc] at hf; cases hf
      exact ⟨e, _, _, he, .fall, rfl⟩
  · obtain hc | ⟨x, y, -, -, -, hc⟩ | ⟨x, -, -, hc⟩ := Engine.jumpIf_cases cond a b e
    · rw [hc] at hf; cases hf
      exact ⟨e, _, _, he, Move.raise _ _ _ (by simp), rfl⟩
    · rw [hc] at hf; cases hf
    · rw [hc] at hf; cases hf

theorem execInput_move {s t : State} {dst : Word} (h : execInput dst s = .next t) :
    ∃ e e' ls', s.acting? = some e ∧ Move s.links e e' ls' ∧ t = s.moved e' ls' := by
  unfold execInput at h
  split at h
  · cases h
  rename_i e he
  split at h
  · rename_i hd
    split at h
    · cases h
    · rename_i hs
      cases h
      refine ⟨e, e, s.links, he, .stall hs, ?_⟩
      rw [← State.putEngine_eq_moved]
      exact (State.putEngine_self s e ((State.acting?_eq_some s e).1 he).1).symm
    · rename_i k hk
      cases h
      refine ⟨e, _, _, he, Move.raise _ _ _ ?_, rfl⟩
      obtain ⟨-, ⟨-, -, rfl⟩ | ⟨_, _, -, -, -, -, rfl⟩⟩ := Engine.chanRead_fault hk <;> simp
    · rename_i v e' ls hw
      cases h
      obtain ⟨hp, rfl, rfl⟩ | ⟨-, hs, hv, rfl, rfl⟩ | ⟨k, l, rest, -, hs, hl, hq, rfl, rfl⟩ := Engine.chanRead_word hw
      · exact ⟨e, _, _, he, .phase dst v hd hp, rfl⟩
      · exact ⟨e, _, _, he, .buffer dst v hd hs hv, rfl⟩
      · exact ⟨e', _, _, he, .pop dst v k l rest hd hs hl hq, rfl⟩
  · cases h
    exact ⟨e, _, _, he, Move.raise _ _ _ (by simp), rfl⟩

theorem execOutput_move {s t : State} {a : Src} (h : execOutput a s = .next t) :
    ∃ e e' ls', s.acting? = some e ∧ Move s.links e e' ls' ∧ t = s.moved e' ls' := by
  unfold execOutput at h
  split at h
  · cases h
  rename_i e he
  split at h
  · cases h
    exact ⟨e, _, _, he, Move.raise _ _ _ (by simp), rfl⟩
  · rename_i v hv
    split at h
    · cases h
    · rename_i e' ls hw
      cases h
      obtain ⟨hs, rfl, rfl⟩ | ⟨k, l, hs, hl, rfl, rfl⟩ := Engine.chanWrite_some hw
      · exact ⟨e, _, _, he, .emit v hs, rfl⟩
      · exact ⟨e', _, _, he, .push v k l hs hl, rfl⟩

theorem execHlt_move {s t : State} (h : execHlt s = .next t) :
    ∃ e e' ls', s.acting? = some e ∧ Move s.links e e' ls' ∧ t = s.moved e' ls' := by
  unfold execHlt at h
  split at h
  · cases h
  rename_i e he
  cases h
  exact ⟨e, _, _, he, .stop .halted (by simp) (by simp), rfl⟩

/-- If an instruction answers a next state, the acting engine made one move and nothing else changed. -/
theorem exec_move {s t : State} {i : Instr} (h : exec i s = .next t) :
    ∃ e e' ls', s.acting? = some e ∧ Move s.links e e' ls' ∧ t = s.moved e' ls' := by
  cases i with
  | add a b dst => exact State.onEngine_threeOperand_move h
  | mul a b dst => exact State.onEngine_threeOperand_move h
  | input dst => exact execInput_move h
  | output a => exact execOutput_move h
  | jnz a t => exact State.onEngine_jumpIf_move h
  | jz a t => exact State.onEngine_jumpIf_move h
  | lt a b dst => exact State.onEngine_threeOperand_move h
  | eq a b dst => exact State.onEngine_threeOperand_move h
  | hlt => exact execHlt_move h

/-- If an engine's step answers a next state, that engine was RUNNING, it made one move, and nothing else changed. -/
theorem State.stepAs_move {s t : State} {i : Nat} (h : s.stepAs i = .next t) :
    ∃ e e' ls', s.engine? i = some e ∧ e.run = .running ∧ Move s.links e e' ls' ∧
      t = ({ s with cur := i } : State).moved e' ls' := by
  unfold State.stepAs at h
  split at h
  · cases h
  rename_i e he
  have hr := (State.acting?_eq_some _ e).1 he
  split at h
  · rename_i k hk
    cases h
    refine ⟨e, _, _, hr.1, hr.2, Move.raise _ _ _ ?_, rfl⟩
    unfold Engine.fetch at hk
    split at hk
    · cases hk
    · rename_i r hd
      cases hk
      cases r <;> simp [FaultKind.ofReject]
  · rename_i j hj
    obtain ⟨e2, e', ls', he2, hm, rfl⟩ := exec_move h
    rw [he] at he2
    cases he2
    exact ⟨e, e', ls', hr.1, hr.2, hm, rfl⟩

/-- If the system takes a step, some engine that may step took it. -/
theorem step_stepAs {s t : State} (h : s.systemStep = .next t) : ∃ i, s.pick? = some i ∧ s.chosen.stepAs i = .next t := by
  unfold State.systemStep at h
  split at h
  · cases h
  · rename_i i hi
    exact ⟨i, hi, h⟩

end Sys2Proof.Machine
end

