-- ==== Sys2Proof/Laws/Cycle.lean ====
section
/-! SUPPORT. What choosing an engine, fetching and stepping can do. -/

namespace Sys2Proof.Machine

/-! ### Choosing an engine -/

theorem State.enabled_iff (s : State) (i : Nat) : s.enabled i = true ↔
    ∃ e, s.engine? i = some e ∧ e.run = .running ∧ e.stalls s.links = false := by
  unfold State.enabled
  cases s.engine? i with
  | none => simp
  | some e => simp

theorem State.mem_enabledEngines (s : State) (i : Nat) : i ∈ s.enabledEngines ↔ s.enabled i = true := by
  unfold State.enabledEngines
  rw [List.mem_filter, List.mem_range]
  refine ⟨fun h => h.2, fun h => ⟨?_, h⟩⟩
  obtain ⟨e, he, -⟩ := (s.enabled_iff i).1 h
  exact (List.getElem?_eq_some_iff.1 he).1

theorem State.enabledEngines_rising (s : State) : s.enabledEngines.Pairwise (· < ·) :=
  List.pairwise_lt_range.filter _

/-- The chosen engine is one that may step (R191). -/
theorem State.pick?_mem {s : State} {i : Nat} (h : s.pick? = some i) : i ∈ s.enabledEngines := by
  unfold State.pick? at h
  split at h
  · cases h
  · rename_i j hj
    cases h
    rw [hj]; simp
  · rename_i j k is hj
    rw [hj]
    split at h
    · rename_i x hx
      cases h
      exact List.mem_of_find?_eq_some hx
    · cases h; simp

theorem State.pick?_eq_none (s : State) : s.pick? = none ↔ s.enabledEngines = [] := by
  unfold State.pick?
  split
  · simp_all
  · simp_all
  · rename_i j k is hj
    rw [hj]
    split <;> simp

theorem State.acting?_withCur {s : State} {i : Nat} {e : Engine} (he : s.engine? i = some e) (hr : e.run = .running) :
    ({ s with cur := i } : State).acting? = some e :=
  (State.acting?_eq_some _ e).2 ⟨he, hr⟩

/-- A RUNNING engine's step is the instruction it fetches, or the fault its fetch raises (R92). -/
theorem State.stepAs_of_running {s : State} {i : Nat} {e : Engine} (he : s.engine? i = some e) (hr : e.run = .running) :
    s.stepAs i = match e.fetch with
      | .error k => .next (({ s with cur := i } : State).raise e k)
      | .ok j => exec j { s with cur := i } := by
  unfold State.stepAs
  simp only [State.acting?_withCur he hr]
  all_goals cases e.fetch <;> rfl

/-! ### Fetching -/

/-- More words after an instruction's own do not change it. -/
theorem decode_append {ws : List Word} {i : Instr} {rest : List Word} (more : List Word) (h : decode ws = .ok (i, rest)) :
    decode (ws ++ more) = .ok (i, rest ++ more) := by
  cases ws with
  | nil => cases h
  | cons w ps =>
    simp only [decode, List.cons_append] at *
    split at h
    · cases h
    rename_i o ho
    cases o <;> simp only [decodeOperands, decodeF3, decodeF2J, decodeF1S, decodeF1D] at h ⊢
    all_goals (repeat' split at h)
    all_goals first
      | (cases h; done)
      | skip
    all_goals cases h
    all_goals simp_all

theorem wrap_toInt_add (a : Word) (n : Nat) : wrap (a.toInt + n) = a + BitVec.ofNat _ n := by
  unfold wrap
  rw [BitVec.ofInt_add]
  simp

theorem Word.add_one_add (a : Word) (k : Nat) : a + 1 + BitVec.ofNat Config.XLEN k = a + BitVec.ofNat Config.XLEN (k + 1) := by
  rw [BitVec.add_assoc]
  congr 1
  simp [BitVec.ofNat_add, BitVec.add_comm]

/-- Words that stand at `a`, `a` + 1, .. come first in the window at `a`. -/
theorem Memory.window_of_words (m : Memory) : ∀ (ws : List Word) (n : Nat) (a : Word), ws.length ≤ n →
    (∀ (k : Nat) (w : Word), ws[k]? = some w → m.read? (a + BitVec.ofNat _ k) = some w) → ∃ more, m.window n a = ws ++ more := by
  intro ws
  induction ws with
  | nil => exact fun n a _ _ => ⟨_, rfl⟩
  | cons w ws ih =>
    intro n a hn h
    cases n with
    | zero => simp at hn
    | succ n =>
      have h0 : m.read? a = some w := by simpa using h 0 w rfl
      obtain ⟨more, hm⟩ := ih n (a + 1) (by simpa using hn) (by
        intro k x hx
        rw [Word.add_one_add]
        exact h (k + 1) x (by simpa using hx))
      exact ⟨more, by simp only [Memory.window, h0, hm]; rfl⟩

/-- Every word of the window at `a` is the word that its own address reads. -/
theorem Memory.read?_of_window (m : Memory) : ∀ (n k : Nat) (a w : Word), (m.window n a)[k]? = some w →
    m.read? (a + BitVec.ofNat _ k) = some w := by
  intro n
  induction n with
  | zero => intro k a w h; simp [Memory.window] at h
  | succ n ih =>
    intro k a w h
    simp only [Memory.window] at h
    split at h
    · simp at h
    · rename_i v hv
      cases k with
      | zero => simpa [hv] using h
      | succ k =>
        rw [← Word.add_one_add]
        exact ih k (a + 1) w (by simpa using h)

/-- The window ends before the first address outside the image. -/
theorem Memory.window_length_le (m : Memory) : ∀ (k n : Nat) (a : Word), m.read? (a + BitVec.ofNat _ k) = none →
    (m.window n a).length ≤ k := by
  intro k
  induction k with
  | zero =>
    intro n a h
    have h : m.read? a = none := by simpa using h
    cases n <;> simp [Memory.window, h]
  | succ k ih =>
    intro n a h
    cases n with
    | zero => simp [Memory.window]
    | succ n =>
      simp only [Memory.window]
      split
      · simp
      · have := ih n (a + 1) (by rw [Word.add_one_add]; exact h)
        simp only [List.length_cons]
        omega

/-- An engine that fetches an instruction has its `IP` inside the image (R93). -/
theorem Engine.inBounds_of_fetch {e : Engine} {i : Instr} (h : e.fetch = .ok i) : e.mem.inBounds e.ip = true := by
  by_contra hc
  have hn : e.mem.read? e.ip = none := (Memory.read?_eq_none _ _).2 (by simpa using hc)
  simp [Engine.fetch, Memory.window, hn, decode] at h

/-! ### Stalls -/

/-- An engine stalls exactly at an IN with a good destination, no phase pending, and an empty open link (R114, R115). -/
theorem Engine.stalls_iff (e : Engine) (ls : List Link) : e.stalls ls = true ↔
    ∃ dst, e.fetch = .ok (.input dst) ∧ e.mem.inBounds dst = true ∧ e.chanRead ls = .stall := by
  unfold Engine.stalls
  split
  · rename_i dst h
    simp [h]
  · rename_i h
    simp only [Bool.false_eq_true, false_iff, not_exists, not_and]
    intro dst hd
    exact absurd hd (h dst)

end Sys2Proof.Machine
end

