-- ==== Sys2Proof/Laws/Act.lean ====
section
/-! SUPPORT. An instruction, and a step of an engine, as a function of that engine and of the links alone. Nothing else of
the state decides what happens, and nothing else changes. -/

namespace Sys2Proof.Machine

/-- The engine after a fault (R178). -/
def Engine.faulted (e : Engine) (k : FaultKind) : Engine := { e with run := .faulted k e.ip }

/-- The engine and the links after an instruction that touches nothing outside its engine. -/
def Engine.actAlone (f : Engine → Except FaultKind Engine) (e : Engine) (ls : List Link) : Engine × List Link :=
  match f e with
  | .ok e' => (e', ls)
  | .error k => (e.faulted k, closedLinks ls e.sink)

/-- The engine and the links after IN; none when the link is missing. -/
def Engine.actInput (dst : Word) (e : Engine) (ls : List Link) : Option (Engine × List Link) :=
  if e.mem.inBounds dst then
    match e.chanRead ls with
    | .noLink => none
    | .stall => some (e, ls)
    | .fault k => some (e.faulted k, closedLinks ls e.sink)
    | .word v e' ls' =>
      some ((({ e' with mem := e'.mem.poke dst.toInt.toNat v } : Engine).advance 2).traced (.input v), ls')
  else some (e.faulted .outOfBounds, closedLinks ls e.sink)

/-- The engine and the links after OUT; none when the link is missing. -/
def Engine.actOutput (a : Src) (e : Engine) (ls : List Link) : Option (Engine × List Link) :=
  match e.val? a with
  | none => some (e.faulted .outOfBounds, closedLinks ls e.sink)
  | some v => (e.chanWrite ls v).map fun p => ((p.1.advance 2).traced (.output v), p.2)

/-- The engine and the links after an instruction; none when it is refused. -/
def Engine.act (i : Instr) (e : Engine) (ls : List Link) : Option (Engine × List Link) :=
  match i with
  | .add a b dst => some (e.actAlone (Engine.threeOperand addWord a b dst) ls)
  | .mul a b dst => some (e.actAlone (Engine.threeOperand mulWord a b dst) ls)
  | .input dst => e.actInput dst ls
  | .output a => e.actOutput a ls
  | .jnz a t => some (e.actAlone (Engine.jumpIf isNonzero a t) ls)
  | .jz a t => some (e.actAlone (Engine.jumpIf isZero a t) ls)
  | .lt a b dst => some (e.actAlone (Engine.threeOperand ltWord a b dst) ls)
  | .eq a b dst => some (e.actAlone (Engine.threeOperand eqWord a b dst) ls)
  | .hlt => some ({ e with run := .halted }, closedLinks ls e.sink)

/-- The answer of a step, from what it does to the acting engine and to the links. -/
def State.answer (s : State) : Option (Engine × List Link) → Result
  | none => .refused .noLink
  | some (e', ls') => .next (s.moved e' ls')

theorem State.onEngine_answer {s : State} {e : Engine} (f : Engine → Except FaultKind Engine) (he : s.acting? = some e) :
    s.onEngine f = s.answer (some (e.actAlone f s.links)) := by
  unfold State.onEngine Engine.actAlone
  rw [he]
  simp only
  cases f e <;> rfl

/-- What an instruction does is decided by the acting engine and the links. -/
theorem exec_answer {s : State} {e : Engine} (i : Instr) (he : s.acting? = some e) :
    exec i s = s.answer (e.act i s.links) := by
  cases i with
  | input dst =>
    simp only [exec, execInput, Engine.act, Engine.actInput, he]
    split
    · cases hc : e.chanRead s.links with
      | stall => exact congrArg Host.Outcome.next (s.putEngine_self e ((s.acting?_eq_some e).1 he).1).symm
      | _ => rfl
    · rfl
  | output a =>
    simp only [exec, execOutput, Engine.act, Engine.actOutput, he]
    cases e.val? a with
    | none => rfl
    | some v => cases hw : e.chanWrite s.links v <;> simp only [hw] <;> rfl
  | hlt => simp only [exec, execHlt, he]; rfl
  | _ => exact State.onEngine_answer _ he

/-- The engine and the links after a step of an engine (R92); none when it is refused. -/
def Engine.stepped (e : Engine) (ls : List Link) : Option (Engine × List Link) :=
  match e.fetch with
  | .error k => some (e.faulted k, closedLinks ls e.sink)
  | .ok i => e.act i ls

/-- What an engine's step does is decided by that engine and the links. -/
theorem State.stepAs_answer {s : State} {i : Nat} {e : Engine} (he : s.engine? i = some e) (hr : e.run = .running) :
    s.stepAs i = ({ s with cur := i } : State).answer (e.stepped s.links) := by
  rw [State.stepAs_of_running he hr]
  unfold Engine.stepped
  cases e.fetch with
  | error k => rfl
  | ok j => exact exec_answer j (State.acting?_withCur he hr)

/-- A step of an engine that answers a next state, as a function. -/
theorem State.stepAs_eq_next {s t : State} {i : Nat} (h : s.stepAs i = .next t) :
    ∃ e e' ls', s.engine? i = some e ∧ e.run = .running ∧ e.stepped s.links = some (e', ls') ∧
      t = ({ s with cur := i } : State).moved e' ls' := by
  obtain ⟨e, -, -, he, hr, -, -⟩ := State.stepAs_move h
  rw [State.stepAs_answer he hr] at h
  cases hs : e.stepped s.links with
  | none => rw [hs] at h; cases h
  | some p =>
    obtain ⟨e', ls'⟩ := p
    rw [hs] at h
    cases h
    exact ⟨e, e', ls', he, hr, hs, rfl⟩

/-- The engines after a move of engine `i`. -/
theorem State.engine?_moved {s : State} {i : Nat} {e : Engine} (he : s.engine? i = some e) (e' : Engine) (ls' : List Link)
    (j : Nat) : (({ s with cur := i } : State).moved e' ls').engine? j = if j = i then some e' else s.engine? j :=
  State.engine?_putEngine ({ s with cur := i, links := ls' } : State) e' e j he

end Sys2Proof.Machine
end

