-- ==== Sys2Proof/Laws/Keeps.lean ====
section
/-! SUPPORT. What every move keeps: the configuration, the facts of `Engine.Ok` and `Link.Ok`, the links of other engines,
and how closure goes with entering a terminal state. -/

namespace Sys2Proof.Machine

/-- No move changes the configuration or the number of links. -/
theorem Move.sameConfig {ls ls' : List Link} {e e' : Engine} (h : Move ls e e' ls') : e.SameConfig e' ∧ ls'.length = ls.length := by
  cases h <;> refine ⟨⟨?_, ?_, ?_, ?_, ?_, ?_, ?_, ?_⟩, ?_⟩ <;> first | rfl | simp_all [Engine.phaseEn, Engine.phaseValue]

/-- A move of a RUNNING engine keeps what holds of it. -/
theorem Move.engineOk {ls ls' : List Link} {e e' : Engine} (hr : e.run = .running) (ho : e.Ok)
    (h : Move ls e e' ls') : e'.Ok := by
  obtain ⟨h1, h2, h3, h4, h5, h6, h7⟩ := ho
  have pk : ∀ (a v : Word), e.mem.inBounds a = true → (e.mem.poke a.toInt.toNat v).wf := by
    intro a v ha
    exact Memory.write?_wf h1 ((Memory.write?_eq_some ..).2 ⟨ha, rfl⟩)
  cases h with
  | store a v h => exact ⟨pk a v h, h2, h3, h4, h5, h6, fun k x hx => absurd (hr.symm.trans hx) (by simp)⟩
  | jump y => exact ⟨h1, h2, h3, h4, h5, h6, fun k x hx => absurd (hr.symm.trans hx) (by simp)⟩
  | fall => exact ⟨h1, h2, h3, h4, h5, h6, fun k x hx => absurd (hr.symm.trans hx) (by simp)⟩
  | stall h => exact ⟨h1, h2, h3, h4, h5, h6, h7⟩
  | phase a v h hp => exact ⟨pk a v h, h2, h3, h4, h5, fun hd => by
      have hd : e.debug = false := hd
      simp [hd, h6 hd], fun k x hx => absurd (hr.symm.trans hx) (by simp)⟩
  | buffer a v h hs hv =>
      refine ⟨pk a v h, h2, ?_, fun hb => absurd hs hb, h5, fun hd => by
        have hd : e.debug = false := hd
        simp [hd, h6 hd], fun k x hx => absurd (hr.symm.trans hx) (by simp)⟩
      have := (List.getElem?_eq_some_iff.1 hv).1
      exact this
  | pop a v k l rest h hs hl hq => exact ⟨pk a v h, h2, h3, h4, h5, fun hd => by
      have hd : e.debug = false := hd
      simp [hd, h6 hd], fun k x hx => absurd (hr.symm.trans hx) (by simp)⟩
  | emit v hs => exact ⟨h1, h2, h3, h4, fun hb => absurd hs hb, fun hd => by
      have hd : e.debug = false := hd
      simp [hd, h6 hd], fun k x hx => absurd (hr.symm.trans hx) (by simp)⟩
  | push v k l hs hl => exact ⟨h1, h2, h3, h4, h5, fun hd => by
      have hd : e.debug = false := hd
      simp [hd, h6 hd], fun k x hx => absurd (hr.symm.trans hx) (by simp)⟩
  | stop r hr' hf => exact ⟨h1, h2, h3, h4, h5, h6, hf⟩

/-- Taking the oldest word keeps what holds of a link. -/
theorem Link.Ok.pop {l : Link} {v : Word} {rest : List Word} (h : l.Ok) (hq : l.q = v :: rest) :
    ({ l with q := rest } : Link).Ok := by
  obtain ⟨h1, h2, h3⟩ := h
  refine ⟨?_, h2, ?_⟩
  · rw [hq] at h1; simp at h1; simp; omega
  · intro hne
    have hne : rest ≠ [] := hne
    show l.last = rest.getLast?
    rw [h3 (by rw [hq]; simp), hq, List.getLast?_cons_of_ne_nil hne]

/-- Appending a word keeps what holds of a link. -/
theorem Link.Ok.write {l : Link} {v : Word} (h : l.Ok) : (l.write v).Ok := by
  obtain ⟨h1, h2, h3⟩ := h
  refine ⟨by simp; exact h1, by simp, by simp⟩

/-- A move keeps what holds of the links. -/
theorem Move.linksOk {ls ls' : List Link} {e e' : Engine} (hl : ∀ (k : Nat) (l : Link), ls[k]? = some l → l.Ok)
    (h : Move ls e e' ls') : ∀ (k : Nat) (l : Link), ls'[k]? = some l → l.Ok := by
  have set_ok : ∀ (j : Nat) (m : Link), m.Ok → ∀ (k : Nat) (l : Link), (ls.set j m)[k]? = some l → l.Ok := by
    intro j m hm k l h
    rw [List.getElem?_set] at h
    split at h
    · split at h
      · cases h; exact hm
      · cases h
    · exact hl k l h
  cases h with
  | pop a v k l rest h hs hl' hq => exact set_ok _ _ ((hl k l hl').pop hq)
  | push v k l hs hl' => exact set_ok _ _ (hl k l hl').write
  | stop r hr' hf =>
    intro k l h
    rw [closedLinks_get] at h
    split at h
    · cases hk : ls[k]? with
      | none => rw [hk] at h; cases h
      | some m =>
        rw [hk] at h; cases h
        obtain ⟨h1, h2, h3⟩ := hl k m hk
        exact ⟨h1, h2, h3⟩
    · exact hl k l h
  | _ => exact hl

/-- A move closes no link, or it enters a terminal state and closes the output link (R121). -/
theorem Move.closure {ls ls' : List Link} {e e' : Engine} (h : Move ls e e' ls') (hr : e.run = .running) :
    (e'.run = .running ∧ ∀ (k : Nat) (l l' : Link), ls[k]? = some l → ls'[k]? = some l' → l'.closed = l.closed) ∨
    (e'.run ≠ .running ∧ ls' = closedLinks ls e.sink) := by
  have same : ∀ {m : List Link}, m = ls → ∀ (k : Nat) (l l' : Link),
      ls[k]? = some l → m[k]? = some l' → l'.closed = l.closed := by
    rintro m rfl k l l' h1 h2; rw [h1] at h2; cases h2; rfl
  have set_same : ∀ (j : Nat) (m n : Link), ls[j]? = some n → m.closed = n.closed → ∀ (k : Nat) (l l' : Link),
      ls[k]? = some l → (ls.set j m)[k]? = some l' → l'.closed = l.closed := by
    intro j m n hn hm k l l' h1 h2
    rw [List.getElem?_set] at h2
    split at h2
    · rename_i hjk; subst hjk
      rw [hn] at h1; cases h1
      split at h2
      · cases h2; exact hm
      · cases h2
    · rw [h1] at h2; cases h2; rfl
  cases h with
  | pop a v k l rest h hs hl' hq => exact .inl ⟨hr, set_same _ _ _ hl' rfl⟩
  | push v k l hs hl' => exact .inl ⟨hr, set_same _ _ _ hl' rfl⟩
  | stop r hr' hf => exact .inr ⟨hr', rfl⟩
  | _ => exact .inl ⟨hr, same rfl⟩

/-- A move leaves every link alone but the two the engine is wired to. -/
theorem Move.otherLinks {ls ls' : List Link} {e e' : Engine} (h : Move ls e e' ls') :
    ∀ k, e.source ≠ .link k → e.sink ≠ .link k → ls'[k]? = ls[k]? := by
  intro k h1 h2
  cases h with
  | pop a v j l rest h hs hl' hq => rw [List.getElem?_set_ne]; rintro rfl; exact h1 hs
  | push v j l hs hl' => rw [List.getElem?_set_ne]; rintro rfl; exact h2 hs
  | stop r hr' hf => rw [closedLinks_get, if_neg h2]
  | _ => rfl

end Sys2Proof.Machine
end

