-- ==== Sys2Proof/Laws/Launch.lean ====
section
/-! SUPPORT. What loading a Program gives, and that every memory that is loaded, placed or reset is canonical. -/

namespace Sys2Proof.Machine

theorem wrap_toInt_of_range {z : Int} (hl : -(2 ^ 63 : Int) ≤ z) (hu : z < (2 ^ 63 : Int)) : (wrap z).toInt = z := by
  unfold wrap
  rw [BitVec.toInt_ofInt]
  exact Int.bmod_eq_of_le (by simp only [Config.XLEN]; omega) (by simp only [Config.XLEN]; omega)

/-- Everything `wordOfInt?` can answer with a word. -/
theorem wordOfInt?_eq_some {z : Int} {w : Word} : wordOfInt? z = some w ↔ w.toInt = z := by
  unfold wordOfInt?
  constructor
  · intro h
    split at h
    · rename_i hz; cases h; exact hz
    · cases h
  · rintro rfl
    have : wrap w.toInt = w := by unfold wrap; simp
    simp [this]

/-- The integers that are no word. -/
theorem wordOfInt?_eq_none {z : Int} : wordOfInt? z = none ↔ z < -(2 ^ 63 : Int) ∨ (2 ^ 63 : Int) ≤ z := by
  constructor
  · intro h
    by_contra hc
    push Not at hc
    rw [wordOfInt?_eq_some.2 (wrap_toInt_of_range hc.1 hc.2)] at h
    cases h
  · intro h
    cases hw : wordOfInt? z with
    | none => rfl
    | some w =>
      have h1 := wordOfInt?_eq_some.1 hw
      have h2 := w.toInt_lt
      have h3 := w.le_toInt
      simp only [Config.XLEN] at h2 h3
      omega

/-- Everything `wordsOfInts?` can answer with words. -/
theorem wordsOfInts?_eq_some {zs : List Int} {ws : List Word} : wordsOfInts? zs = some ws ↔ ws.map BitVec.toInt = zs := by
  induction zs generalizing ws with
  | nil => simp only [wordsOfInts?, Option.some.injEq, List.map_eq_nil_iff]; exact eq_comm
  | cons z zs ih =>
    unfold wordsOfInts?
    constructor
    · intro h
      split at h
      · rename_i w vs hw hvs
        cases h
        rw [List.map_cons, wordOfInt?_eq_some.1 hw, ih.1 hvs]
      · cases h
    · intro h
      cases ws with
      | nil => cases h
      | cons w vs =>
        rw [List.map_cons, List.cons.injEq] at h
        rw [wordOfInt?_eq_some.2 h.1, ih.2 h.2]

theorem wordsOfInts?_eq_none {zs : List Int} : wordsOfInts? zs = none ↔ ∃ z ∈ zs, wordOfInt? z = none := by
  induction zs with
  | nil => simp [wordsOfInts?]
  | cons z zs ih =>
    unfold wordsOfInts?
    cases hz : wordOfInt? z with
    | none => simp [hz]
    | some w =>
      cases hzs : wordsOfInts? zs with
      | none =>
        obtain ⟨y, hy, hn⟩ := ih.1 hzs
        simp only [true_iff]
        exact ⟨y, List.mem_cons_of_mem _ hy, hn⟩
      | some ws =>
        simp only [reduceCtorEq, false_iff, not_exists, not_and]
        intro y hy hn
        rcases List.mem_cons.1 hy with rfl | hy
        · rw [hz] at hn; cases hn
        · rw [ih.2 ⟨y, hy, hn⟩] at hzs; cases hzs

/-- Everything `programWords?` can answer with words (R5, R211). -/
theorem programWords?_eq_some {zs : List Int} {ws : List Word} :
    programWords? zs = some ws ↔ ws.map BitVec.toInt = zs ∧ ws.length ≤ Config.maxMemSize := by
  unfold programWords?
  rw [← wordsOfInts?_eq_some]
  split
  · rename_i h
    refine ⟨fun hs => ⟨hs, ?_⟩, fun hs => hs.1⟩
    have := congrArg List.length (wordsOfInts?_eq_some.1 hs)
    simp at this
    omega
  · rename_i h
    simp only [reduceCtorEq, false_iff, not_and]
    intro hs
    have := congrArg List.length (wordsOfInts?_eq_some.1 hs)
    simp at this
    omega

theorem programWords?_eq_none {zs : List Int} : programWords? zs = none ↔
    (Config.maxMemSize < zs.length ∨ ∃ z ∈ zs, z < -(2 ^ 63 : Int) ∨ (2 ^ 63 : Int) ≤ z) := by
  unfold programWords?
  simp only [← wordOfInt?_eq_none, ← wordsOfInts?_eq_none]
  by_cases hlen : zs.length ≤ Config.maxMemSize
  · simp only [hlen, if_true, Nat.not_lt.2 hlen, false_or]
  · simp only [hlen, if_false, Nat.lt_of_not_le hlen, true_or]

/-! ### Loaded memory -/

theorem mem_cellsFrom {c : Nat × Word} : ∀ {ws : List Word} {a : Nat}, c ∈ cellsFrom a ws →
    a ≤ c.1 ∧ c.1 < a + ws.length ∧ c.2 ≠ Memory.unlisted := by
  intro ws
  induction ws with
  | nil => intro a h; cases h
  | cons w ws ih =>
    intro a h
    unfold cellsFrom at h
    split at h
    · obtain ⟨h1, h2, h3⟩ := ih h
      exact ⟨by omega, by simp only [List.length_cons]; omega, h3⟩
    · rename_i hw
      rcases List.mem_cons.1 h with rfl | h
      · exact ⟨le_refl a, by simp, hw⟩
      · obtain ⟨h1, h2, h3⟩ := ih h
        exact ⟨by omega, by simp only [List.length_cons]; omega, h3⟩

theorem cellsFrom_rising (ws : List Word) (a : Nat) : (cellsFrom a ws).Pairwise fun c d => c.1 < d.1 := by
  induction ws generalizing a with
  | nil => exact List.Pairwise.nil
  | cons w ws ih =>
    unfold cellsFrom
    split
    · exact ih _
    · exact List.pairwise_cons.2 ⟨fun c hc => (mem_cellsFrom hc).1, ih _⟩

theorem lookupCell_cellsFrom (ws : List Word) (a b : Nat) :
    lookupCell (cellsFrom a ws) b = if a ≤ b then (ws[b - a]?).getD Memory.unlisted else Memory.unlisted := by
  induction ws generalizing a with
  | nil => simp [cellsFrom, lookupCell]
  | cons w ws ih =>
    have step : lookupCell (cellsFrom a (w :: ws)) b = if b = a then w else lookupCell (cellsFrom (a + 1) ws) b := by
      show lookupCell (if w = Memory.unlisted then cellsFrom (a + 1) ws else (a, w) :: cellsFrom (a + 1) ws) b = _
      split
      · rename_i hw
        by_cases h : b = a
        · rw [if_pos h, ih, if_neg (by omega), hw]
        · rw [if_neg h]
      · rfl
    rw [step, ih]
    by_cases h : b = a
    · simp [h]
    · rw [if_neg h]
      by_cases hl : a + 1 ≤ b
      · have : b - a = (b - (a + 1)) + 1 := by omega
        rw [if_pos hl, if_pos (by omega), this, List.getElem?_cons_succ]
      · rw [if_neg hl, if_neg (by omega)]

/-- The loaded image is canonical. -/
theorem Memory.load_wf (ws : List Word) : (Memory.load ws).wf :=
  ⟨cellsFrom_rising ws 0, fun _ hc => ⟨(mem_cellsFrom hc).2.2, by simpa [Memory.load] using (mem_cellsFrom hc).2.1⟩⟩

@[simp] theorem Memory.load_size (ws : List Word) : (Memory.load ws).size = ws.length := rfl

/-- The loaded image holds the Program's words at their addresses (R211). -/
theorem Memory.peek_load {ws : List Word} {a : Nat} {w : Word} (h : ws[a]? = some w) : (Memory.load ws).peek a = w := by
  unfold Memory.peek Memory.load
  rw [lookupCell_cellsFrom]
  simp [h]

/-- Placing words keeps the canonical form. -/
theorem Memory.place_wf {m : Memory} (h : m.wf) (a : Nat) (ws : List Word) : (m.place a ws).wf := by
  induction ws generalizing m a with
  | nil => exact h
  | cons w ws ih => exact ih (Memory.poke_wf w (Memory.grow_wf h (by omega)) (by simp)) (a + 1)

/-- The memory after reset is canonical. -/
theorem State.reset_wf : ∀ e ∈ State.reset.engines, e.mem.wf := by decide

/-! ### The links and the engines of a pipeline -/

theorem launchEngines_length (ws : List Word) (n : Nat) (fb : Bool) (dbg : List Bool) (i : Nat) (ps : List Word) :
    (launchEngines ws n fb dbg i ps).length = ps.length := by
  induction ps generalizing i with
  | nil => rfl
  | cons p ps ih => simp [launchEngines, ih]

/-- The engines of a pipeline at launch. -/
theorem launchEngines_get (ws : List Word) (n : Nat) (fb : Bool) (dbg : List Bool) (i : Nat) (ps : List Word) (j : Nat) :
    (launchEngines ws n fb dbg i ps)[j]? = ps[j]?.map fun p =>
      Engine.launch ws (i + j) (.link (i + j)) (.link (outLink n fb (i + j))) (some p) [] (dbg.getD (i + j) false) := by
  induction ps generalizing i j with
  | nil => rfl
  | cons p ps ih =>
    cases j with
    | zero => rfl
    | succ j =>
      simp only [launchEngines, List.getElem?_cons_succ]
      rw [ih]
      have : i + 1 + j = i + (j + 1) := by omega
      rw [this]

end Sys2Proof.Machine
end

