-- ==== Sys2Proof/Laws/LinkOps.lean ====
section
/-! SUPPORT. What a step does to the links is one of four operations on one link; which one is decided by what the engine can
see; and the operations of two engines commute. -/

namespace Sys2Proof.Machine

/-- What one step of an engine can do to the links. -/
inductive LinkOp where
  | keep
  | pop (k : Nat)
  | push (k : Nat) (v : Word)
  | close (k : Nat)

/-- Do it to the links. -/
def LinkOp.on : LinkOp → List Link → List Link
  | .keep, ls => ls
  | .pop k, ls => ls.modify k fun l => { l with q := l.q.tail }
  | .push k v, ls => ls.modify k (·.write v)
  | .close k, ls => ls.modify k fun l => { l with closed := true }

/-- What engine `e` may do: pop its own input link when a word is there, and push to or close its own output link. -/
def LinkOp.Allowed (e : Engine) (ls : List Link) : LinkOp → Prop
  | .keep => True
  | .pop k => e.source = .link k ∧ ∀ l, ls[k]? = some l → l.q ≠ []
  | .push k _ => e.sink = .link k
  | .close k => e.sink = .link k

/-- All that the next step of `e` can see of the links is the same in both: if it reads its input link, the oldest word there, or
that there is none and whether the link is closed; and whether its output link exists. -/
def LooksSame (e : Engine) (ls ls2 : List Link) : Prop :=
  (∀ dst, e.fetch = .ok (.input dst) → e.mem.inBounds dst = true → e.phasePending = false → ∀ k, e.source = .link k →
    (ls[k]? = none ∧ ls2[k]? = none) ∨ ∃ l l2, ls[k]? = some l ∧ ls2[k]? = some l2 ∧
     ((∃ v r r2, l.q = v :: r ∧ l2.q = v :: r2) ∨ (l.q = [] ∧ l2.q = [] ∧ l2.closed = l.closed))) ∧
  (∀ k, e.sink = .link k → ((ls[k]? = none ∧ ls2[k]? = none) ∨ ∃ l l2, ls[k]? = some l ∧ ls2[k]? = some l2))

theorem set_eq_modify {ls : List Link} {k l} (f : Link → Link) (h : ls[k]? = some l) : ls.set k (f l) = ls.modify k f := by
  apply List.ext_getElem?
  intro j
  rw [List.getElem?_set, List.getElem?_modify]
  have := (List.getElem?_eq_some_iff.1 h).1
  split
  · subst_vars; simp [this]; have := (List.getElem?_eq_some_iff.1 h).2; rw [this]
  · simp

theorem closedLinks_linkOp (d : Sink) : ∃ op : LinkOp, (∀ ls, closedLinks ls d = op.on ls) ∧ ∀ e : Engine, e.sink = d → ∀ ls, op.Allowed e ls := by
  cases d with
  | buffer => exact ⟨.keep, fun _ => rfl, fun _ _ _ => trivial⟩
  | link k =>
    refine ⟨.close k, fun ls => ?_, fun e h ls => h⟩
    apply List.ext_getElem?
    intro j
    rw [closedLinks_get, LinkOp.on, List.getElem?_modify]
    by_cases h : k = j <;> simp [h]

/-- `g` does the same to both lists of links: it gives the same engine and does the same one thing to each. -/
def StepsAlike (e : Engine) (g : List Link → Option (Engine × List Link)) (ls ls2 : List Link) : Prop :=
  (g ls = none ∧ g ls2 = none) ∨
  ∃ e' op, g ls = some (e', LinkOp.on op ls) ∧ g ls2 = some (e', LinkOp.on op ls2) ∧ op.Allowed e ls

theorem stepsAlike_close (e e' : Engine) (ls ls2) (g) (h : ∀ ls, g ls = some (e', closedLinks ls e.sink)) : StepsAlike e g ls ls2 := by
  obtain ⟨op, h1, h2⟩ := closedLinks_linkOp e.sink
  exact .inr ⟨e', op, by rw [h, h1], by rw [h, h1], h2 e rfl ls⟩

theorem stepsAlike_keep (e e' : Engine) (ls ls2) (g) (h : ∀ ls, g ls = some (e', ls)) : StepsAlike e g ls ls2 :=
  .inr ⟨e', .keep, h _, h _, trivial⟩

theorem stepsAlike_alone (e : Engine) (f) (ls ls2) : StepsAlike e (fun ls => some (e.actAlone f ls)) ls ls2 := by
  unfold Engine.actAlone
  cases f e with
  | ok e' => exact stepsAlike_keep e e' _ _ _ fun _ => rfl
  | error k => exact stepsAlike_close e _ _ _ _ fun _ => rfl

theorem stepsAlike_output (e : Engine) (a) (ls ls2) (hc : LooksSame e ls ls2) : StepsAlike e (e.actOutput a) ls ls2 := by
  unfold Engine.actOutput
  cases e.val? a with
  | none => exact stepsAlike_close e _ _ _ _ fun _ => rfl
  | some v =>
    unfold Engine.chanWrite
    cases hs : e.sink with
    | buffer => exact stepsAlike_keep e _ _ _ _ (fun _ => by simp only [Option.map_some]; rfl)
    | link k =>
      obtain ⟨h1, h2⟩ | ⟨l, l2, h1, h2⟩ := hc.2 k hs
      · left; simp [h1, h2]
      · right
        refine ⟨(e.advance 2).traced (.output v), .push k v, ?_, ?_, hs⟩
        · simp only [h1, Option.map_some]; rw [set_eq_modify (fun l => l.write v) h1]; rfl
        · simp only [h2, Option.map_some]; rw [set_eq_modify (fun l => l.write v) h2]; rfl

theorem stepsAlike_input (e : Engine) (a) (ls ls2) (hff : e.fetch = .ok (.input a)) (hc : LooksSame e ls ls2) : StepsAlike e (e.actInput a) ls ls2 := by
  unfold Engine.actInput
  split
  swap
  · exact stepsAlike_close e _ _ _ _ fun _ => rfl
  rename_i hbb
  have gen : e.phasePending = false → StepsAlike e (fun ls => match (match e.source with | .buffer => e.bufferRead ls | .link k => e.linkRead ls k) with
      | .noLink => none
      | .stall => some (e, ls)
      | .fault k => some (e.faulted k, closedLinks ls e.sink)
      | .word v e' ls' =>
      some ((({ e' with mem := e'.mem.poke a.toInt.toNat v } : Engine).advance 2).traced (.input v), ls')) ls ls2 := by
    intro hp
    cases hs : e.source with
    | buffer =>
      simp only [Engine.bufferRead]
      cases e.ibuf[e.ipos]? with
      | none => exact stepsAlike_close e _ _ _ _ fun _ => rfl
      | some v => exact stepsAlike_keep e _ _ _ _ fun _ => rfl
    | link k =>
      simp only [Engine.linkRead]
      obtain ⟨h1, h2⟩ | ⟨l, l2, h1, h2, ⟨v, r, r2, h3, h4⟩ | ⟨h3, h4, h5⟩⟩ := hc.1 a hff hbb hp k hs
      · left; simp [h1, h2]
      · right
        refine ⟨(({ e with mem := e.mem.poke a.toInt.toNat v } : Engine).advance 2).traced (.input v), .pop k, ?_, ?_, hs, ?_⟩
        · simp only [h1, h3]
          have := set_eq_modify (fun l => { l with q := l.q.tail }) h1
          rw [h3] at this
          rw [LinkOp.on, ← this]; rfl
        · simp only [h2, h4]
          have := set_eq_modify (fun l => { l with q := l.q.tail }) h2
          rw [h4] at this
          rw [LinkOp.on, ← this]; rfl
        · intro l' h; rw [h1] at h; cases h; rw [h3]; simp
      · cases hcl : l.closed with
        | true =>
          obtain ⟨op, g1, g2⟩ := closedLinks_linkOp e.sink
          exact .inr ⟨_, op, by simp only [h1, h3, hcl]; rw [← g1]; rfl, by simp only [h2, h4, h5, hcl]; rw [← g1]; rfl, g2 e rfl ls⟩
        | false => exact .inr ⟨_, .keep, by simp only [h1, h3, hcl]; rfl, by simp only [h2, h4, h5, hcl]; rfl, trivial⟩
  unfold Engine.chanRead
  unfold Engine.phasePending at gen
  cases hp : e.phase with
  | pending v => exact stepsAlike_keep e _ _ _ _ fun _ => rfl
  | _ => rw [hp] at gen; exact gen rfl

/-- An engine's step does the same to lists of links that look the same to it. -/
theorem Engine.stepsAlike (e : Engine) (ls ls2) (hc : LooksSame e ls ls2) : StepsAlike e e.stepped ls ls2 := by
  unfold Engine.stepped
  cases hff : e.fetch with
  | error k => exact stepsAlike_close e _ _ _ _ fun _ => rfl
  | ok i =>
    cases i with
    | input dst => exact stepsAlike_input e _ _ _ hff hc
    | output a => exact stepsAlike_output e _ _ _ hc
    | hlt => exact stepsAlike_close e _ _ _ _ fun _ => rfl
    | _ => exact stepsAlike_alone e _ _ _

/-- What it does to link `j`. -/
def LinkOp.effect : LinkOp → Nat → Link → Link
  | .keep, _, l => l
  | .pop k, j, l => if k = j then { l with q := l.q.tail } else l
  | .push k v, j, l => if k = j then l.write v else l
  | .close k, j, l => if k = j then { l with closed := true } else l

theorem LinkOp.get_on (op : LinkOp) (ls : List Link) (j : Nat) : (op.on ls)[j]? = ls[j]?.map (op.effect j) := by
  cases op <;> simp only [LinkOp.on, List.getElem?_modify] <;> cases ls[j]? <;> rfl

theorem LinkOp.effect_other (op : LinkOp) (e : Engine) (ls : List Link) (k l) (ho : op.Allowed e ls) (h1 : e.source ≠ .link k) (h2 : e.sink ≠ .link k) :
   op.effect k l = l := by
  cases op with
  | keep => rfl
  | pop j => exact if_neg (by rintro rfl; exact h1 ho.1)
  | push j v => exact if_neg (by rintro rfl; exact h2 ho)
  | close j => exact if_neg (by rintro rfl; exact h2 ho)

theorem LinkOp.on_congr (op : LinkOp) (ls ls2 : List Link) (k : Nat) (h : ls2[k]? = ls[k]?) : (op.on ls2)[k]? = (op.on ls)[k]? := by
  rw [LinkOp.get_on, LinkOp.get_on, h]

theorem looksSame_of_eq {e : Engine} {ls ls2 : List Link} (h : ∀ k, e.source = .link k ∨ e.sink = .link k → ls2[k]? = ls[k]?) : LooksSame e ls ls2 := by
  refine ⟨fun _ _ _ _ k hk => ?_, fun k hk => ?_⟩
  · have := h k (.inl hk)
    rw [this]
    cases ls[k]? with
    | none => exact .inl ⟨rfl, rfl⟩
    | some l =>
      refine .inr ⟨l, l, rfl, rfl, ?_⟩
      cases l.q with
      | nil => exact .inr ⟨rfl, rfl, rfl⟩
      | cons v r => exact .inl ⟨v, r, r, rfl, rfl⟩
  · have := h k (.inr hk)
    rw [this]
    cases ls[k]? with
    | none => exact .inl ⟨rfl, rfl⟩
    | some l => exact .inr ⟨l, l, rfl, rfl⟩

/-- What two engines with no reader and no writer in common may do to the links commutes. -/
theorem LinkOp.on_comm {e f : Engine} {ls : List Link} {a b : LinkOp} (ha : a.Allowed e ls) (hb : b.Allowed f ls)
   (h1 : ∀ k, e.source = .link k → f.source ≠ .link k) (h2 : ∀ k, e.sink = .link k → f.sink ≠ .link k) :
   a.on (b.on ls) = b.on (a.on ls) := by
  apply List.ext_getElem?
  intro j
  simp only [LinkOp.get_on]
  cases hj : ls[j]? with
  | none => rfl
  | some l =>
    simp only [Option.map_some, Option.some.injEq]
    cases a with
    | keep => rfl
    | pop k =>
      cases b with
      | keep => rfl
      | pop k' =>
        have : k ≠ k' := by rintro rfl; exact h1 k ha.1 hb.1
        simp only [LinkOp.effect]; split <;> split <;> simp_all
      | push k' v =>
        simp only [LinkOp.effect]; split <;> split <;> try rfl
        subst_vars
        have := ha.2 l hj
        cases hq : l.q with
        | nil => exact absurd hq this
        | cons x r => simp [Link.write, hq]
      | close k' => simp only [LinkOp.effect]; split <;> split <;> rfl
    | push k v =>
      cases b with
      | keep => rfl
      | pop k' =>
        simp only [LinkOp.effect]; split <;> split <;> try rfl
        subst_vars
        have := hb.2 l hj
        cases hq : l.q with
        | nil => exact absurd hq this
        | cons x r => simp [Link.write, hq]
      | push k' v' =>
        have : k ≠ k' := by rintro rfl; exact h2 k ha hb
        simp only [LinkOp.effect]; split <;> split <;> simp_all
      | close k' => simp only [LinkOp.effect]; split <;> split <;> rfl
    | close k =>
      cases b <;> simp only [LinkOp.effect] <;> split <;> split <;> rfl

/-- A step does one of these things to the links. -/
theorem Engine.stepped_linkOp {e e' : Engine} {ls ls'} (h : e.stepped ls = some (e', ls')) : ∃ op : LinkOp, op.Allowed e ls ∧ ls' = op.on ls := by
  obtain ⟨h1, -⟩ | ⟨e2, op, h1, h2, ho⟩ := Engine.stepsAlike e ls ls (looksSame_of_eq fun _ _ => rfl)
  · rw [h1] at h; cases h
  · rw [h1] at h; cases h; exact ⟨op, ho, rfl⟩

end Sys2Proof.Machine
end

