-- ==== Sys2Proof/Laws/PerInstr.lean ====
section
/-! SUPPORT. What holds of every instruction as syntax, one lemma per constructor: the shape of its encoding. -/

namespace Sys2Proof.Laws.EncodedShape

/-- The encoding of an instruction is an instruction word and as many operand words as its opcode has (R83); the word has
the opcode's number in its opcode field (R81, R91), passes both checks of dispatch (R87, R88), and has 0 in every digit that
the opcode does not consult (R96). -/
def Statement (i : Instr) : Prop :=
  ∃ (w : Word) (ps : List Word), encode i = w :: ps ∧ ps.length = i.opcode.operands ∧
    (decodeFields w).opcode = i.opcode.code ∧ (decodeFields w).wellFormed = true ∧
    (i.opcode.sources < 1 → (decodeFields w).mode0 = 0) ∧ (i.opcode.sources < 2 → (decodeFields w).mode1 = 0) ∧
    (decodeFields w).mode2 = 0

/-- The shape, for an instruction word of a given opcode and mode digits. -/
theorem of_canonical {i : Instr} {m n : Nat} {ps : List Word} (he : encode i = canonicalWord i.opcode m n :: ps)
    (hl : ps.length = i.opcode.operands) (hm : m < 2) (hn : n < 2) (h0 : i.opcode.sources < 1 → m = 0)
    (h1 : i.opcode.sources < 2 → n = 0) : Statement i := by
  have hf := decodeFields_canonicalWord i.opcode m n hm hn
  refine ⟨_, ps, he, hl, by rw [hf], ?_, fun h => by rw [hf, h0 h]; rfl, fun h => by rw [hf, h1 h]; rfl, by rw [hf]⟩
  rw [hf, Fields.wellFormed, Bool.and_eq_true]
  refine ⟨(Fields.opcodeOk_iff _).2 ⟨i.opcode, rfl⟩, (Fields.modesOk_iff _).2 fun o _ => ⟨fun _ => ?_, fun _ => ?_⟩⟩ <;>
    simp only [Nat.cast_eq_zero, Nat.cast_eq_one] <;> omega

theorem add (a b : Src) (dst : Word) : Statement (.add a b dst) :=
  of_canonical rfl rfl a.digit_lt b.digit_lt (by simp [Instr.opcode, Opcode.sources]) (by simp [Instr.opcode, Opcode.sources])

theorem mul (a b : Src) (dst : Word) : Statement (.mul a b dst) :=
  of_canonical rfl rfl a.digit_lt b.digit_lt (by simp [Instr.opcode, Opcode.sources]) (by simp [Instr.opcode, Opcode.sources])

theorem input (dst : Word) : Statement (.input dst) :=
  of_canonical rfl rfl (by decide) (by decide) (fun _ => rfl) (fun _ => rfl)

theorem output (a : Src) : Statement (.output a) :=
  of_canonical rfl rfl a.digit_lt (by decide) (by simp [Instr.opcode, Opcode.sources]) (fun _ => rfl)

theorem jnz (a target : Src) : Statement (.jnz a target) :=
  of_canonical rfl rfl a.digit_lt target.digit_lt (by simp [Instr.opcode, Opcode.sources])
    (by simp [Instr.opcode, Opcode.sources])

theorem jz (a target : Src) : Statement (.jz a target) :=
  of_canonical rfl rfl a.digit_lt target.digit_lt (by simp [Instr.opcode, Opcode.sources])
    (by simp [Instr.opcode, Opcode.sources])

theorem lt (a b : Src) (dst : Word) : Statement (.lt a b dst) :=
  of_canonical rfl rfl a.digit_lt b.digit_lt (by simp [Instr.opcode, Opcode.sources]) (by simp [Instr.opcode, Opcode.sources])

theorem eq (a b : Src) (dst : Word) : Statement (.eq a b dst) :=
  of_canonical rfl rfl a.digit_lt b.digit_lt (by simp [Instr.opcode, Opcode.sources]) (by simp [Instr.opcode, Opcode.sources])

theorem hlt : Statement .hlt :=
  of_canonical rfl rfl (by decide) (by decide) (fun _ => rfl) (fun _ => rfl)

end Sys2Proof.Laws.EncodedShape
end

