-- ==== Sys2Proof/Tests/Slice0.lean ====
section
/-! SUPPORT. The model's own tests: the ill-formed words each check refuses, instruction words written out from the spec's
encodings, single steps from spec/95_test_vectors.md, and for every obligation with hypotheses a witness that meets them. -/

namespace Sys2Proof.Tests

open Sys2Proof Sys2Proof.Machine

/-! ### Well-formedness (R87, R88; vectors DEC7, DEC13, DEC15, DEC16, DEC20 to DEC28) -/

theorem test_wellFormed_ok : (decodeFields 1002).wellFormed = true ∧ (decodeFields 203).wellFormed = true ∧
    (decodeFields 2099).wellFormed = true := by decide

/-- The opcode check refuses 0, 9, 98, 100 and the negative words, -99 among them. -/
theorem test_wellFormed_opcode : ([0, 9, 98, 100, -1, -99, -101, -1002] : List Word).all
    (fun w => !(decodeFields w).opcodeOk) = true := by decide

/-- The mode check refuses a consulted digit 2. -/
theorem test_wellFormed_modes : ([2001, 204, 1205, 2105] : List Word).all
    (fun w => (decodeFields w).opcodeOk && !(decodeFields w).modesOk) = true := by decide

/-- The launch refuses an integer that is no word, and a pipeline of no engine (R211, R6). -/
theorem test_launch_refuses : State.launchSingle? [99, 2 ^ 63] [] none false = none ∧
    State.launchSingle? [-(2 ^ 63) - 1] [] none false = none ∧ State.launchPipeline? [99] [] false [] = none := by decide

/-! ### Decoding words written out from the spec (R91, R96, R97) -/

/-- `101,5,23,23`: ADD, mode digits 1 and 0. -/
theorem test_decode_add : decode [101, 5, 23, 23] = .ok (.add (.imm 5) (.pos 23) 23, []) := by rfl
/-- `1002,16,10,16`: MUL, mode digits 0 and 1. -/
theorem test_decode_mul : decode [1002, 16, 10, 16] = .ok (.mul (.pos 16) (.imm 10) 16, []) := by rfl
/-- `203,15`: IN, whose mode digits are ignored (DEC10). -/
theorem test_decode_input : decode [203, 15, 7] = .ok (.input 15, [7]) := by rfl
/-- `104,7`: OUT of the value itself. -/
theorem test_decode_output : decode [104, 7] = .ok (.output (.imm 7), []) := by rfl
/-- `1005,28,6`: JNZ to the address 6 itself. -/
theorem test_decode_jnz : decode [1005, 28, 6] = .ok (.jnz (.pos 28) (.imm 6), []) := by rfl
/-- `106,0,9`: JZ on the value 0 to the address in cell 9. -/
theorem test_decode_jz : decode [106, 0, 9] = .ok (.jz (.imm 0) (.pos 9), []) := by rfl
/-- `1007,31,0,33`: LT. -/
theorem test_decode_lt : decode [1007, 31, 0, 33] = .ok (.lt (.pos 31) (.imm 0) 33, []) := by rfl
/-- `1008,54,0,55`: EQ. -/
theorem test_decode_eq : decode [1008, 54, 0, 55] = .ok (.eq (.pos 54) (.imm 0) 55, []) := by rfl
/-- `11199`: HLT with ignored digits (S2). -/
theorem test_decode_hlt : decode [11199] = .ok (.hlt, []) := by rfl
/-- The opcode is checked before the modes (DEC28), and the modes before the operand words. -/
theorem test_decode_rejects : decode [209] = .error .invalidOpcode ∧ decode [2001] = .error .reservedMode ∧
    decode [1101, 1, 1] = .error .truncated := ⟨rfl, rfl, rfl⟩

/-- The bits of OUT's row of spec/opcode_table.json: opcode 4, the operand word of zeros. -/
theorem test_decodeTableWord : decodeTableWord 8 4 = some (.output (.pos 0)) ∧
    decodeTableWord 256 (1002 + 16 * 2 ^ 64 + 10 * 2 ^ 128 + 16 * 2 ^ 192) = some (.mul (.pos 16) (.imm 10) 16) ∧
    decodeTableWord 8 9 = none := by decide

/-! ### Single steps (spec/95_test_vectors.md, part 2) -/

/-- A single engine with a program, as R212 launches it. -/
def launched (prog : List Int) (ibuf : List Word) (phase : Option Word) : State :=
  (State.launchSingle? prog ibuf phase false).getD State.reset

/-- What is seen of engine 0. -/
structure View where
  run : Nat
  fkind : Nat
  ip : Int
  obuf : List Int
  cell : Int
deriving DecidableEq, Repr

/-- What is seen of engine 0 after one step, with the word at one address. -/
def seen (s : State) (a : Nat) : Option View :=
  match step s with
  | .next t => (t.engine? 0).map fun e => ⟨e.run.code, e.fkind, e.ip.toInt, e.obuf.map BitVec.toInt, (e.mem.peek a).toInt⟩
  | _ => none

/-- ADD3: the largest word plus 1 wraps. -/
theorem test_add_wraps : seen (launched [1101, 9223372036854775807, 1, 5, 99, 0] [] none) 5
    = some ⟨0, 0, 4, [], -9223372036854775808⟩ := by decide
/-- ADD4: both sources and the destination are the instruction word itself. -/
theorem test_add_self : seen (launched [1, 0, 0, 0, 99] [] none) 0 = some ⟨0, 0, 4, [], 2⟩ := by decide
/-- MUL2: a negative product. -/
theorem test_mul_negative : seen (launched [1102, -3, 4, 5, 99, 0] [] none) 5 = some ⟨0, 0, 4, [], -12⟩ := by decide
/-- MUL5: a product that wraps. -/
theorem test_mul_wraps : seen (launched [1102, 3037000500, 3037000500, 5, 99, 0] [] none) 5
    = some ⟨0, 0, 4, [], -9223372036709301616⟩ := by decide
/-- IN1, first step: the buffer's word. -/
theorem test_input_buffer : seen (launched [3, 0, 4, 0, 99] [77] none) 0 = some ⟨0, 0, 2, [], 77⟩ := by decide
/-- IN4, first step: the phase comes before the buffer. -/
theorem test_input_phase : seen (launched [3, 7, 3, 8, 4, 8, 99, 0, 0] [8] (some 5)) 7 = some ⟨0, 0, 2, [], 5⟩ := by decide
/-- OUT1. -/
theorem test_output_immediate : seen (launched [104, -7, 99] [] none) 0 = some ⟨0, 0, 2, [-7], 104⟩ := by decide
/-- OUT2: a source out of bounds faults with code 5. -/
theorem test_output_faults : seen (launched [4, 50, 99] [] none) 0 = some ⟨2, 5, 0, [], 4⟩ := by decide
/-- JMP3: a negative word jumps, and the target is read through memory. -/
theorem test_jnz_negative : seen (launched [5, 7, 8, 99, 104, 9, 99, -3, 4] [] none) 0 = some ⟨0, 0, 4, [], 5⟩ := by decide
/-- JMP2: not taken. -/
theorem test_jnz_falls : seen (launched [1105, 0, 4, 99, 104, 9, 99] [] none) 0 = some ⟨0, 0, 3, [], 1105⟩ := by decide
/-- R141: taken on 0. -/
theorem test_jz_taken : seen (launched [1106, 0, 4, 99, 99] [] none) 0 = some ⟨0, 0, 4, [], 1106⟩ := by decide
/-- R141: not taken, so a target out of bounds is never read. -/
theorem test_jz_falls : seen (launched [106, 1, 50, 99] [] none) 0 = some ⟨0, 0, 3, [], 106⟩ := by decide
/-- R150: the comparison is signed. -/
theorem test_lt_signed : seen (launched [1107, -1, 0, 5, 99, 7] [] none) 5 = some ⟨0, 0, 4, [], 1⟩ := by decide
/-- R150: equal words are not less. -/
theorem test_lt_equal : seen (launched [1107, 3, 3, 5, 99, 7] [] none) 5 = some ⟨0, 0, 4, [], 0⟩ := by decide
/-- R151. -/
theorem test_eq_equal : seen (launched [1108, -3, -3, 5, 99, 7] [] none) 5 = some ⟨0, 0, 4, [], 1⟩ := by decide
/-- R151. -/
theorem test_eq_different : seen (launched [1108, 3, -3, 5, 99, 7] [] none) 5 = some ⟨0, 0, 4, [], 0⟩ := by decide
/-- R160: HALTED, `IP` unchanged. -/
theorem test_hlt : seen (launched [99] [] none) 0 = some ⟨1, 0, 0, [], 99⟩ := by decide

/-- The host's probe: the word of OUT's row, placed in the state after reset, is what the next step runs. -/
theorem test_withFetchWord : seen (State.reset.withFetchWord 8 4) 0 = some ⟨0, 0, 2, [4], 4⟩ := by decide
/-- From reset with nothing placed, the first step faults: there is no word at address 0 (log 3). -/
theorem test_reset_step : seen State.reset 0 = some ⟨2, 5, 0, [], 0⟩ := by decide

/-! ### A check that implies the invariant, for the witnesses below -/

/-- `Engine.Ok`, computed. -/
def okCheck (e : Engine) : Bool :=
  decide e.mem.wf && decide (e.mem.size ≤ Config.maxMemSize) && decide (e.ipos ≤ e.ibuf.length) &&
  (decide (e.source = .buffer) || decide (e.ipos = 0)) && (decide (e.sink = .buffer) || decide (e.obuf = [])) &&
  (e.debug || decide (e.trace = [])) &&
  match e.run with
  | .faulted k a => decide (a = e.ip) && decide (k ≠ .decodeFault)
  | _ => true

/-- `Link.Ok`, computed. -/
def linkCheck (l : Link) : Bool :=
  decide (l.q.length ≤ l.wcount) && decide (l.last = none ↔ l.wcount = 0) && (decide (l.q = []) || decide (l.last = l.q.getLast?))

/-- What `State.Inv` says of two engines, computed. -/
def pairCheck (s : State) (i j : Nat) (e f : Engine) : Bool :=
  decide (e.vmid = i) &&
  (match e.source with | .link k => decide (k < s.links.length) && (decide (i = j) || decide (f.source ≠ .link k)) | _ => true) &&
  (match e.sink with
    | .link k => decide (k < s.links.length) && (decide (i = j) || decide (f.sink ≠ .link k)) &&
      (match s.link? k with | some l => decide (l.closed = true ↔ e.run ≠ .running) | none => true)
    | _ => true)

/-- `State.Inv`, computed. -/
def invCheck (s : State) : Bool :=
  s.engines.all okCheck && s.links.all linkCheck &&
  (List.range s.engines.length).all fun i => (List.range s.engines.length).all fun j =>
    match s.engine? i, s.engine? j with
    | some e, some f => pairCheck s i j e f
    | _, _ => true

theorem ok_of_check {e : Engine} (h : okCheck e = true) : e.Ok := by
  simp only [okCheck, Bool.and_eq_true, Bool.or_eq_true, decide_eq_true_eq] at h
  obtain ⟨⟨⟨⟨⟨⟨h1, h2⟩, h3⟩, h4⟩, h5⟩, h6⟩, h7⟩ := h
  refine ⟨h1, h2, h3, fun hn => h4.resolve_left hn, fun hn => h5.resolve_left hn, fun hn => ?_, fun k a hr => ?_⟩
  · rw [hn] at h6; simpa using h6
  · rw [hr] at h7; simpa using h7

theorem inv_of_check {s : State} (h : invCheck s = true) : s.Inv := by
  simp only [invCheck, Bool.and_eq_true, List.all_eq_true, List.mem_range] at h
  obtain ⟨⟨h1, h2⟩, h3⟩ := h
  have pair : ∀ i j e f, s.engine? i = some e → s.engine? j = some f → pairCheck s i j e f = true := by
    intro i j e f he hf
    have := h3 i (List.getElem?_eq_some_iff.1 he).1 j (List.getElem?_eq_some_iff.1 hf).1
    rw [he, hf] at this
    exact this
  refine ⟨fun i e he => ok_of_check (h1 e (List.mem_of_getElem? he)), fun k l hl => ?_, ⟨?_, ?_, ?_, ?_, ?_⟩, ?_⟩
  · have := h2 l (List.mem_of_getElem? hl)
    simp only [linkCheck, Bool.and_eq_true, Bool.or_eq_true, decide_eq_true_eq] at this
    exact ⟨this.1.1, this.1.2, fun hn => this.2.resolve_left hn⟩
  · intro i e he
    have := pair i i e e he he
    simp only [pairCheck, Bool.and_eq_true, decide_eq_true_eq] at this
    exact this.1.1
  · intro i e k he hk
    have := pair i i e e he he
    simp only [pairCheck, hk, Bool.and_eq_true, decide_eq_true_eq] at this
    exact this.1.2.1
  · intro i e k he hk
    have := pair i i e e he he
    simp only [pairCheck, hk, Bool.and_eq_true, decide_eq_true_eq] at this
    exact this.2.1.1
  · intro i j e f k he hf hk hk'
    have := pair i j e f he hf
    simp only [pairCheck, hk, Bool.and_eq_true, Bool.or_eq_true, decide_eq_true_eq] at this
    exact this.1.2.2.resolve_right fun hn => hn hk'
  · intro i j e f k he hf hk hk'
    have := pair i j e f he hf
    simp only [pairCheck, hk, Bool.and_eq_true, Bool.or_eq_true, decide_eq_true_eq] at this
    exact this.2.1.2.resolve_right fun hn => hn hk'
  · intro i e k l he hk hl
    have := pair i i e e he he
    simp only [pairCheck, hk, hl, Bool.and_eq_true, decide_eq_true_eq] at this
    exact this.2.2

/-! ### Witnesses: states and operands that meet the hypotheses of the obligations -/

/-- A state answers a next state exactly when this is true. -/
def isNext : Result → Bool
  | .next _ => true
  | _ => false

theorem next_of {r : Result} (h : isNext r = true) : ∃ t, r = .next t := by
  cases r with
  | next t => exact ⟨t, rfl⟩
  | fault _ => cases h
  | refused _ => cases h

/-- Five words, of which address 4 is the last. -/
def five : State := launched [1101, 5, 0, 4, 99] [] none
/-- Its engine. -/
def fiveEngine : Engine := (five.engine? 0).getD Engine.reset
/-- An IN into the last word of three, with its phase taken, wired to links `i` and `i` + 1. -/
def reader (i : Nat) : Engine :=
  { Engine.launch [3, 2, 0] i (.link i) (.link (i + 1)) (some 9) [] false with phase := .consumed 9 }
/-- Engine 0 can read the seed; engine 1 waits for it. -/
def waiting : State where
  engines := [reader 0, reader 1]
  links := [Link.seeded false, Link.empty, Link.empty]
  topology := .linear
  cur := 0
  sched := []
  picks := 0
/-- Engine 0 has halted with nothing written: engine 1 finds its link empty and closed. -/
def released : State where
  engines := [{ reader 0 with run := .halted }, reader 1]
  links := [Link.seeded false, { Link.empty with closed := true }, Link.empty]
  topology := .linear
  cur := 1
  sched := []
  picks := 0
/-- Engine 0 waits for a word that no one writes: the run is stuck. -/
def stuck : State where
  engines := [reader 0]
  links := [Link.empty, Link.empty]
  topology := .linear
  cur := 0
  sched := []
  picks := 0
/-- Two engines that both may step: the first halts, the second emits. -/
def both : State where
  engines := [Engine.launch [99] 0 (.link 0) (.link 1) none [] false, Engine.launch [104, 5, 99] 1 (.link 1) (.link 2) none [] true]
  links := [Link.seeded false, Link.empty, Link.empty]
  topology := .linear
  cur := 0
  sched := []
  picks := 0
/-- A single engine that has halted. -/
def halted : State := { State.reset with engines := [{ Engine.reset with run := .halted, obuf := [7] }] }
/-- A single engine that has faulted. -/
def failed : State := { State.reset with engines := [{ Engine.reset with run := .faulted .outOfBounds 0 }] }

/-- The states in which the witnesses need the invariant. -/
theorem witness_inv : waiting.Inv ∧ released.Inv ∧ stuck.Inv ∧ both.Inv ∧ halted.Inv ∧ failed.Inv ∧ five.Inv :=
  ⟨inv_of_check (by decide), inv_of_check (by decide), inv_of_check (by decide), inv_of_check (by decide),
    inv_of_check (by decide), inv_of_check (by decide), inv_of_check (by decide)⟩

/-- An acting engine with 10011 at its `IP`, and one with the most negative word. -/
theorem witness_RaisesInvalidOpcode :
    (∃ e, (launched [10011] [] none).acting? = some e ∧ e.mem.read? e.ip = some 10011) ∧
    ∃ e, (launched [-9223372036854775808] [] none).acting? = some e ∧ e.mem.read? e.ip = some (-9223372036854775808) :=
  ⟨⟨_, rfl, by decide⟩, ⟨_, rfl, by decide⟩⟩

theorem witness_EncodeOfDecode : ∃ i rest, decode (10101 :: [5, 6, 7, 8]) = .ok (i, rest) := ⟨_, _, rfl⟩

/-- Zero and the largest word. -/
theorem witness_FieldsRebuildWord : 0 ≤ (0 : Word).toInt ∧ 0 ≤ (9223372036854775807 : Word).toInt := by decide

/-- Both ends of the negative words, and zero. -/
theorem witness_NegativeWordsInvalid : (-1 : Word).toInt < 0 ∧ (-9223372036854775808 : Word).toInt < 0 ∧
    0 ≤ (0 : Word).toInt := by decide

/-- Each verdict is reached: both sides of each equivalence are met. -/
theorem witness_DecodeVerdicts : decode (9 :: []) = .error .invalidOpcode ∧ decode (2001 :: []) = .error .reservedMode ∧
    decode (1 :: [5, 6]) = .error .truncated := ⟨rfl, rfl, rfl⟩

theorem witness_IgnoredDigitsIgnored : (decodeFields 20001).opcode = (decodeFields 1).opcode ∧
    (decodeFields 20001).mode0 = (decodeFields 1).mode0 ∧ (decodeFields 20001).mode1 = (decodeFields 1).mode1 := by decide

/-- Both ends of the range of a word. -/
theorem witness_WrapIsCongruentWord : -(2 ^ (Config.XLEN - 1) : Int) ≤ -9223372036854775808 ∧
    (9223372036854775807 : Int) < 2 ^ (Config.XLEN - 1) ∧ (wrap 9223372036854775808).toInt = -9223372036854775808 := by decide

/-- The first and the last address, and the two next to them outside. -/
theorem witness_MemoryReadsAndWrites : (fiveEngine.mem.write? 0 7).isSome = true ∧ (fiveEngine.mem.write? 4 7).isSome = true ∧
    fiveEngine.mem.write? 5 7 = none ∧ fiveEngine.mem.write? (-1) 7 = none ∧ fiveEngine.mem.wf := by decide

/-- ADD, MUL, LT, EQ: both clauses, at the last address and just past it, with each source unreadable in turn. -/
theorem witness_threeOperand : ((decodeFields 20001).opcode = (1 : Nat) ∧ (decodeFields 20001).mode0 = (Src.pos 5).digit ∧
      (decodeFields 1102).opcode = (2 : Nat) ∧ (decodeFields 1102).mode1 = (Src.imm 5).digit ∧
      (decodeFields 107).opcode = (7 : Nat) ∧ (decodeFields 1008).opcode = (8 : Nat)) ∧ five.acting? = some fiveEngine ∧
    (fiveEngine.val? (.pos 4) = some 99 ∧ fiveEngine.val? (.imm 5) = some 5 ∧ fiveEngine.mem.inBounds 4 = true) ∧
    fiveEngine.val? (.pos 5) = none ∧ fiveEngine.val? (.pos (-1)) = none ∧ fiveEngine.mem.inBounds 5 = false := by decide

/-- JNZ, JZ: a first operand that is 0, one that is not, one that is unreadable, and a target that is and one that is not
readable. -/
theorem witness_jump : ((decodeFields 1005).opcode = (5 : Nat) ∧ (decodeFields 1005).mode0 = (Src.pos 5).digit ∧
      (decodeFields 1005).mode1 = (Src.imm 5).digit ∧ (decodeFields 6).opcode = (6 : Nat)) ∧ five.acting? = some fiveEngine ∧ fiveEngine.val? (.pos 2) = some 0 ∧ fiveEngine.val? (.pos 4) = some 99 ∧
    (99 : Word) ≠ 0 ∧ fiveEngine.val? (.imm (-1)) = some (-1) ∧ fiveEngine.val? (.pos 5) = none := by decide

theorem witness_InputBadDestinationFaults : five.acting? = some fiveEngine ∧ fiveEngine.mem.inBounds 5 = false ∧
    fiveEngine.mem.inBounds (-1) = false := by decide

theorem witness_InputTakesPhase :
    ∃ e, (launched [3, 2, 0] [] (some 5)).acting? = some e ∧ e.mem.inBounds 2 = true ∧ e.phase = .pending 5 := ⟨_, rfl, by decide, rfl⟩

/-- A buffer with its last word to read, and one with none. -/
theorem witness_InputReadsBuffer :
    (∃ e, (launched [3, 2, 0] [7] none).acting? = some e ∧ e.mem.inBounds 2 = true ∧ e.phasePending = false ∧
      e.source = .buffer ∧ e.ibuf[e.ipos]? = some 7) ∧
    ∃ e, (launched [3, 2, 0] [] none).acting? = some e ∧ e.mem.inBounds 2 = true ∧ e.phasePending = false ∧
      e.source = .buffer ∧ e.ibuf.length ≤ e.ipos :=
  ⟨⟨_, rfl, by decide, rfl, rfl, rfl⟩, ⟨_, rfl, by decide, rfl, rfl, by decide⟩⟩

/-- A link with a word, one that is empty and closed, one that is empty and open. -/
theorem witness_InputReadsLink :
    (waiting.acting? = some (reader 0) ∧ (reader 0).source = .link 0 ∧ waiting.link? 0 = some (Link.seeded false) ∧
      (Link.seeded false).q = [0]) ∧
    (released.acting? = some (reader 1) ∧ (reader 1).source = .link 1 ∧
      released.link? 1 = some { Link.empty with closed := true }) ∧
    (stuck.acting? = some (reader 0) ∧ stuck.link? 0 = some Link.empty) ∧
    (reader 0).mem.inBounds 2 = true ∧ (reader 1).mem.inBounds 2 = true ∧ (reader 0).phasePending = false ∧
    (reader 1).phasePending = false := by decide

/-- A buffer sink, a link sink, and a source that cannot be read. -/
theorem witness_OutputEmitsValue : ((decodeFields 104).opcode = 4 ∧ (decodeFields 104).mode0 = (Src.imm 7).digit) ∧ (five.acting? = some fiveEngine ∧ fiveEngine.val? (.pos 4) = some 99 ∧ fiveEngine.sink = .buffer) ∧
    (waiting.acting? = some (reader 0) ∧ (reader 0).val? (.pos 0) = some 3 ∧ (reader 0).sink = .link 1 ∧
      waiting.link? 1 = some Link.empty) ∧ fiveEngine.val? (.pos 5) = none := by decide

theorem witness_HltHaltsAndCloses : (decodeFields 2099).opcode = 99 ∧ (five.acting? = some fiveEngine ∧ fiveEngine.sink = .buffer) ∧
    (waiting.acting? = some (reader 0) ∧ (reader 0).sink = .link 1 ∧ waiting.link? 1 = some Link.empty) := by decide

/-- An engine wired to links 7 and 8 of a state that has none. -/
theorem witness_MissingLinkIsRefused : ∃ (s : State) (e : Engine), s.acting? = some e ∧ s.link? 7 = none ∧ s.link? 8 = none ∧
    e.mem.inBounds 2 = true ∧ e.phasePending = false ∧ e.source = .link 7 ∧ e.val? (.pos 0) = some 3 ∧ e.sink = .link 8 :=
  ⟨{ State.reset with engines := [reader 7] }, reader 7, by decide, rfl, rfl, by decide, rfl, rfl, by decide, rfl⟩

theorem witness_FaultEntryRecordsAndCloses : waiting.acting? = some (reader 0) ∧ (reader 0).sink = .link 1 ∧
    waiting.link? 1 = some Link.empty ∧ waiting.link? 2 = some Link.empty := by decide

/-- ADD, MUL, LT, EQ: a step that completes and one that faults. -/
theorem witness_ThreeOperandFrame : five.acting? = some fiveEngine ∧
    (∃ t, exec (.add (.imm 5) (.pos 0) 4) five = .next t) ∧ ∃ t, exec (.eq (.imm 5) (.pos 5) 4) five = .next t :=
  ⟨by decide, next_of (by decide), next_of (by decide)⟩

theorem witness_JumpFrame : five.acting? = some fiveEngine ∧ (∃ t, exec (.jnz (.imm 1) (.pos 0)) five = .next t) ∧
    (∃ t, exec (.jz (.imm 1) (.pos 9)) five = .next t) ∧ ∃ t, exec (.jz (.pos 9) (.imm 0)) five = .next t :=
  ⟨by decide, next_of (by decide), next_of (by decide), next_of (by decide)⟩

/-- IN that reads a link, that faults, that stalls, and that takes a phase. -/
theorem witness_InputFrame : (waiting.acting? = some (reader 0) ∧ ∃ t, exec (.input 2) waiting = .next t) ∧
    (released.acting? = some (reader 1) ∧ ∃ t, exec (.input 2) released = .next t) ∧
    (stuck.acting? = some (reader 0) ∧ ∃ t, exec (.input 2) stuck = .next t) ∧
    ∃ e t, (launched [3, 2, 0] [] (some 5)).acting? = some e ∧ e.phasePending = true ∧
      exec (.input 2) (launched [3, 2, 0] [] (some 5)) = .next t := by
  refine ⟨⟨by decide, next_of (by decide)⟩, ⟨by decide, next_of (by decide)⟩, ⟨by decide, next_of (by decide)⟩, ?_⟩
  obtain ⟨t, h⟩ := next_of (r := exec (.input 2) (launched [3, 2, 0] [] (some 5))) (by decide)
  exact ⟨_, t, rfl, rfl, h⟩

theorem witness_OutputFrame : (five.acting? = some fiveEngine ∧ ∃ t, exec (.output (.pos 4)) five = .next t) ∧
    (∃ t, exec (.output (.pos 5)) five = .next t) ∧ waiting.acting? = some (reader 0) ∧
    ∃ t, exec (.output (.imm 5)) waiting = .next t :=
  ⟨⟨by decide, next_of (by decide)⟩, next_of (by decide), by decide, next_of (by decide)⟩

theorem witness_HltFrame : waiting.acting? = some (reader 0) ∧ (reader 0).sink = .link 1 ∧ ∃ t, exec .hlt waiting = .next t :=
  ⟨by decide, rfl, next_of (by decide)⟩

/-- A step that runs an instruction, and one that takes the fault of a rejection. -/
theorem witness_StepRunsDecoded : (five.pick? = some 0 ∧ five.engine? 0 = some fiveEngine ∧
      ∃ j rest, decode (fiveEngine.mem.window 4 fiveEngine.ip) = .ok (j, rest)) ∧
    State.reset.pick? = some 0 ∧ State.reset.engine? 0 = some Engine.reset ∧
      decode (Engine.reset.mem.window 4 Engine.reset.ip) = .error .truncated :=
  ⟨⟨by decide, rfl, _, _, rfl⟩, by decide, rfl, rfl⟩

/-- An instruction whose last word is the last of the image. -/
theorem witness_FetchReadsPlacedWords : decode [11199] = .ok (.hlt, []) ∧
    (∀ (k : Nat) (w : Word), ([11199] : List Word)[k]? = some w →
      (Engine.launch [7, 11199] 0 .buffer .buffer none [] false).mem.read? (wrap ((1 : Word).toInt + k)) = some w) := by
  refine ⟨rfl, fun k w h => ?_⟩
  cases k with
  | zero => cases h; decide
  | succ k => cases h

/-- `IP` just outside the image; a word with no opcode; a reserved mode; an operand word just outside. -/
theorem witness_FetchFaultPriority : (({ fiveEngine with ip := 5 } : Engine).mem.inBounds 5 = false) ∧
    (∃ e : Engine, e.mem.read? e.ip = some 9 ∧ (decodeFields 9).opcodeOk = false ∧ ∀ o : Opcode, (decodeFields 9).opcode ≠ o.code) ∧
    (∃ e : Engine, e.mem.read? e.ip = some 2001 ∧ (decodeFields 2001).opcodeOk = true ∧ (decodeFields 2001).modesOk = false) ∧
    (∃ e : Engine, e.mem.read? e.ip = some 1101 ∧ (decodeFields 1101).opcode = Opcode.add.code ∧
      (decodeFields 1101).modesOk = true ∧ 3 ≤ Opcode.add.operands ∧ e.mem.inBounds (wrap (e.ip.toInt + (3 : Nat))) = false) :=
  ⟨by decide,
    ⟨Engine.launch [9] 0 .buffer .buffer none [] false, by decide, by decide, fun o => by cases o <;> decide⟩,
    ⟨Engine.launch [2001] 0 .buffer .buffer none [] false, by decide, by decide, by decide⟩,
    Engine.launch [1101, 1, 1] 0 .buffer .buffer none [] false, by decide, by decide, by decide, by decide, by decide⟩

/-- An engine that may step, one that stalls, and one that does not exist. -/
theorem witness_EnabledExactly : waiting.enabled 0 = true ∧ waiting.enabled 1 = false ∧ waiting.enabled 2 = false := by decide

/-- The only engine that may step is chosen; none is chosen when stuck; and each of two can be chosen. -/
theorem witness_PickChoosesAnyEnabled : waiting.pick? = some 0 ∧ stuck.pick? = none ∧ both.enabled 0 = true ∧
    both.enabled 1 = true ∧ ({ both with sched := [1] } : State).pick? = some 1 ∧
    ({ both with sched := [0] } : State).pick? = some 0 := by decide

theorem stuck_stuck : stuck.Stuck := by
  refine ⟨by decide, fun i => ?_⟩
  cases i with
  | zero => decide
  | succ i => rfl

theorem witness_StopsOnlyWhenEndedOrStuck : (halted.Inv ∧ halted.ended = true) ∧ (stuck.Inv ∧ stuck.Stuck) ∧
    (waiting.Inv ∧ waiting.ended = false ∧ ¬ waiting.Stuck) :=
  ⟨⟨witness_inv.2.2.2.2.1, by decide⟩, ⟨witness_inv.2.2.1, stuck_stuck⟩, witness_inv.1, by decide,
    fun h => by have := h.2 0; revert this; decide⟩

theorem witness_EnabledEngineSteps : waiting.Inv ∧ waiting.enabled 0 = true := ⟨witness_inv.1, by decide⟩

theorem witness_TerminatedWriterReleasesReader : ∃ (e f : Engine) (l : Link), released.Inv ∧ released.engine? 1 = some e ∧
    released.engine? 0 = some f ∧ released.link? 1 = some l ∧ e.run = .running ∧ e.fetch = .ok (.input 2) ∧
    e.mem.inBounds 2 = true ∧ e.phasePending = false ∧ e.source = .link 1 ∧ f.sink = .link 1 ∧ f.run ≠ .running ∧ l.q = [] :=
  ⟨_, _, _, witness_inv.2.1, rfl, rfl, rfl, rfl, rfl, by decide, rfl, rfl, rfl, by decide, rfl⟩

/-- A step of an engine that reads a link, and one after which an engine is terminal. -/
theorem witness_StepKeepsInv : (waiting.Inv ∧ ∃ t, step waiting = .next t) ∧ released.Inv ∧ ∃ t, step released = .next t :=
  ⟨⟨witness_inv.1, next_of (by decide)⟩, witness_inv.2.1, next_of (by decide)⟩

/-- LaunchesMeetInv, LaunchSingleState, LaunchPipelineState. Launches that succeed: the empty Program, and a pipeline of one engine and of two, without and with feedback. -/
theorem witness_launches : (∃ s, State.launchSingle? [] [] none false = some s) ∧
    (∃ s, State.launchSingle? [-9223372036854775808, 9223372036854775807] [7] (some 5) true = some s) ∧
    (∃ s, State.launchPipeline? [99] [4] false [] = some s) ∧ (∃ s, State.launchPipeline? [99] [4] true [true] = some s) ∧
    ∃ s, State.launchPipeline? [3, 1, 99] [4, 3] true [] = some s :=
  ⟨⟨_, rfl⟩, ⟨_, rfl⟩, ⟨_, rfl⟩, ⟨_, rfl⟩, ⟨_, rfl⟩⟩

theorem witness_TerminalEnginesNeverChange : (∃ t, step released = .next t) ∧
    ∃ e, released.engine? 0 = some e ∧ e.run ≠ .running := ⟨next_of (by decide), _, rfl, by decide⟩

theorem witness_ConfigurationNeverChanges : (∃ t, step waiting = .next t) ∧ waiting.engine? 1 = some (reader 1) :=
  ⟨next_of (by decide), rfl⟩

/-- A step of engine 0, with another engine and a link it is not wired to. -/
theorem witness_EngineTouchesOnlyItsOwn : (∃ t, waiting.stepAs 0 = .next t) ∧ waiting.engine? 0 = some (reader 0) ∧
    waiting.engine? 1 = some (reader 1) ∧ (reader 0).source ≠ .link 2 ∧ (reader 0).sink ≠ .link 2 :=
  ⟨next_of (by decide), by decide⟩

/-- Two states that differ in engine 1 and in a link that engine 0 is not wired to. -/
theorem witness_EngineLearnsOnlyItsOwn : ∃ s' : State, s' ≠ waiting ∧ waiting.engine? 0 = some (reader 0) ∧
    s'.engine? 0 = some (reader 0) ∧ (∀ k, (reader 0).source = .link k ∨ (reader 0).sink = .link k → s'.link? k = waiting.link? k) ∧
    ∃ t, waiting.stepAs 0 = .next t := by
  refine ⟨{ waiting with engines := [reader 0], links := [Link.seeded false, Link.empty] }, by decide, rfl, rfl, ?_,
    next_of (by decide)⟩
  rintro k (h | h) <;> cases h <;> rfl

/-- A step that reads a link, one that writes a link, and one that closes a link. -/
theorem witness_LinkStepIsFifo : (∃ t, waiting.stepAs 0 = .next t) ∧ (∃ t, both.stepAs 1 = .next t) ∧
    (∃ t, both.stepAs 0 = .next t) ∧ waiting.link? 0 = some (Link.seeded false) ∧ both.link? 1 = some Link.empty ∧
    both.link? 2 = some Link.empty :=
  ⟨next_of (by decide), next_of (by decide), next_of (by decide), by decide⟩

/-- A step that advances, one that halts, and a stall. -/
theorem witness_IpChangesOnlyAsListed : (∃ t f, five.stepAs 0 = .next t ∧ t.engine? 0 = some f ∧ f.run = .running ∧
      fiveEngine.stalls five.links = false) ∧
    (∃ t f, both.stepAs 0 = .next t ∧ t.engine? 0 = some f ∧ f.run ≠ .running) ∧
    ∃ t f, stuck.stepAs 0 = .next t ∧ t.engine? 0 = some f ∧ (reader 0).stalls stuck.links = true :=
  ⟨⟨_, _, rfl, rfl, rfl, by decide⟩, ⟨_, _, rfl, rfl, by decide⟩, ⟨_, _, rfl, rfl, by decide⟩⟩

/-- An instruction of four words that ends where the image ends. -/
theorem witness_IpAdvanceNeverWraps : ∃ e : Engine, e.Ok ∧ e.mem.size = 4 ∧ ∃ i, e.fetch = .ok i :=
  ⟨Engine.launch [1, 0, 0, 0] 0 .buffer .buffer none [] false, ok_of_check (by decide), rfl, _, rfl⟩

/-- A store into the last word, which is the next instruction's (MUL1, ADD at the end of memory); and an input word, from a buffer, from
a link and as a phase, stored into the next instruction (IN9). -/
theorem witness_StoreSeenByNextFetch :
    (five.acting? = some fiveEngine ∧ fiveEngine.mem.inBounds 4 = true ∧ fiveEngine.val? (.imm 33) = some 33 ∧
      fiveEngine.val? (.pos 4) = some 99) ∧
    (∃ e, (launched [3, 2, 0] [99] none).acting? = some e ∧ e.mem.inBounds 2 = true ∧ e.stream [] = [99]) ∧
    (∃ e, (launched [3, 2, 0] [] (some 99)).acting? = some e ∧ e.mem.inBounds 2 = true ∧ e.stream [] = [99]) ∧
    waiting.acting? = some (reader 0) ∧ (reader 0).mem.inBounds 2 = true ∧ (reader 0).stream waiting.links = [0] :=
  ⟨by decide, ⟨_, rfl, by decide, rfl⟩, ⟨_, rfl, by decide, rfl⟩, by decide⟩

theorem witness_ReservedFaultCodeNeverWritten : (∃ t, step released = .next t) ∧
    ∀ i e, released.engine? i = some e → e.fkind ≠ 1 := by
  refine ⟨next_of (by decide), fun i e h => ?_⟩
  match i with
  | 0 => cases h; decide
  | 1 => cases h; decide
  | _ + 2 => cases h

/-- A stream whose first word is the phase, one whose first word is in the buffer, one whose first word is in a link. -/
theorem witness_InputReceivesStreamInOrder :
    (∃ e, (launched [3, 2, 0] [8] (some 5)).acting? = some e ∧ e.mem.inBounds 2 = true ∧ e.stream [] = [5, 8]) ∧
    (∃ e, (launched [3, 2, 0] [8] none).acting? = some e ∧ e.mem.inBounds 2 = true ∧ e.stream [] = [8]) ∧
    waiting.acting? = some (reader 0) ∧ (reader 0).mem.inBounds 2 = true ∧ (reader 0).stream waiting.links = [0] :=
  ⟨⟨_, rfl, by decide, rfl⟩, ⟨_, rfl, by decide, rfl⟩, by decide⟩

/-- A step that appends to a trace. -/
theorem witness_DebugHasNoEffect : ∃ t f, both.stepAs 1 = .next t ∧ t.engine? 1 = some f ∧ f.trace = [.output 5] :=
  ⟨_, _, rfl, rfl, rfl⟩

/-- A run that has not ended; one that failed; a single engine that halted; and pipelines that halted, with and without a word
in the result link. -/
theorem witness_ResultReadout : waiting.ended = false ∧
    (failed.ended = true ∧ failed.engine? 0 = some { Engine.reset with run := .faulted .outOfBounds 0 }) ∧
    (halted.ended = true ∧ halted.topology = .single ∧ halted.engine? 0 = some { Engine.reset with run := .halted, obuf := [7] }) ∧
    (∀ e ∈ halted.engines, e.run = .halted) ∧
    (({ halted with topology := .linear, links := [Link.seeded false, Link.empty] } : State).link? 1 = some Link.empty) ∧
    (({ halted with topology := .feedback, links := [Link.seeded true] } : State).link? 0 = some (Link.seeded true)) := by decide

theorem witness_EngineStepsCommute : both.Inv ∧ both.enabled 0 = true ∧ both.enabled 1 = true ∧
    (∃ t, both.stepAs 0 = .next t) ∧ ∃ u, both.stepAs 1 = .next u :=
  ⟨witness_inv.2.2.2.1, by decide, by decide, next_of (by decide), next_of (by decide)⟩

/-- Two interleavings of `both`: one ends the run after three steps, one has taken a single step; and a run that is stuck. -/
theorem witness_OutcomeIndependentOfSchedule : both.Inv ∧ (∃ t, State.Runs 3 both t ∧ ∀ i, t.enabled i = false) ∧
    (∃ u, State.Runs 1 both u) ∧ stuck.Inv ∧ State.Runs 0 stuck stuck ∧ ∀ i, stuck.enabled i = false :=
  ⟨witness_inv.2.2.2.1,
    ⟨_, .step 0 (by decide) rfl (.step 1 (by decide) rfl (.step 1 (by decide) rfl (.refl _))), fun i => by
      match i with
      | 0 => rfl
      | 1 => rfl
      | _ + 2 => rfl⟩,
    ⟨_, .step 1 (by decide) rfl (.refl _)⟩, witness_inv.2.2.1, .refl _, stuck_stuck.2⟩

end Sys2Proof.Tests
end

section
/-! SUPPORT. The statements of spec/00_scope.md: the word that `wrap` gives (R9, R102), the room that the largest image leaves
above `IP` (R5, R24), and the launches that are refused (R5, R6, R211). -/

namespace Sys2Proof.Machine

/-! ### `wrap` as a congruence -/

theorem toInt_wrap (z : Int) : (wrap z).toInt = z.bmod (2 ^ Config.XLEN) := BitVec.toInt_ofInt z

/-- The balanced remainder that `wrap` takes depends on the remainder alone, and is the signed reading of a word. -/
theorem eq_wrap_iff_emod {z : Int} {w : Word} : w = wrap z ↔ (w.toInt - z) % (2 ^ Config.XLEN : Int) = 0 := by
  rw [← Int.emod_eq_emod_iff_emod_sub_eq_zero]
  constructor
  · rintro rfl
    rw [toInt_wrap]
    exact Int.bmod_emod
  · intro h
    apply BitVec.eq_of_toInt_eq
    calc w.toInt = w.toInt.bmod (2 ^ Config.XLEN) := w.toInt_bmod_cancel.symm
      _ = (w.toInt % (2 ^ Config.XLEN : Int)).bmod (2 ^ Config.XLEN) := (Int.emod_bmod _ _).symm
      _ = (z % (2 ^ Config.XLEN : Int)).bmod (2 ^ Config.XLEN) := by rw [h]
      _ = z.bmod (2 ^ Config.XLEN) := Int.emod_bmod _ _
      _ = (wrap z).toInt := (toInt_wrap z).symm

/-- Settles O9: congruence determines the word, and an integer in the range of a word reads back as itself. -/
theorem wrapIsCongruentWord : Obligations.WrapIsCongruentWord :=
  ⟨fun _ _ => eq_wrap_iff_emod, fun _ hl hu => wrap_toInt_of_range hl hu⟩

/-! ### The advance of `IP` -/

/-- An address inside an image of a legal size, and the four addresses after it, lie in the range of a word: `Config.maxMemSize`
leaves just that room. -/
theorem Memory.toInt_wrap_add_of_inBounds {m : Memory} {a : Word} {n : Nat} (hm : m.size ≤ Config.maxMemSize)
    (ha : m.inBounds a = true) (hn : n ≤ 4) : (wrap (a.toInt + n)).toInt = a.toInt + n := by
  obtain ⟨h0, hlt⟩ := (m.inBounds_iff a).1 ha
  have hmax : (m.size : Int) ≤ 2 ^ 63 - 4 := by simp only [Config.maxMemSize, Config.XLEN] at hm; omega
  exact wrap_toInt_of_range (by omega) (by omega)

/-- Settles O48: a successful fetch puts `IP` inside the image, whose size the invariant bounds. -/
theorem ipAdvanceNeverWraps : Obligations.IpAdvanceNeverWraps :=
  fun _ _ _ hok hf hn => Memory.toInt_wrap_add_of_inBounds hok.memSize (Engine.inBounds_of_fetch hf) hn

/-! ### Refused launches -/

theorem State.launchSingle?_eq_none {prog : List Int} {ibuf : List Word} {phase : Option Word} {debug : Bool} :
    State.launchSingle? prog ibuf phase debug = none ↔ programWords? prog = none := by
  unfold State.launchSingle?
  cases programWords? prog <;> simp

theorem State.launchPipeline?_eq_none {prog : List Int} {phases : List Word} {feedback : Bool} {debugs : List Bool} :
    State.launchPipeline? prog phases feedback debugs = none ↔ phases = [] ∨ programWords? prog = none := by
  unfold State.launchPipeline?
  cases phases with
  | nil => simp
  | cons p ps => cases programWords? prog <;> simp

/-- Settles O55: either launch refuses a Program that cannot be loaded, and a pipeline also needs an engine. -/
theorem launchRefusals : Obligations.LaunchRefusals :=
  ⟨fun _ _ _ _ => State.launchSingle?_eq_none.trans programWords?_eq_none,
    fun _ _ _ _ => State.launchPipeline?_eq_none.trans (or_congr Iff.rfl programWords?_eq_none)⟩

end Sys2Proof.Machine
end

section
/-! SUPPORT. The statements of spec/10_state.md: what reset leaves (R37, R212), what no step changes (R23, R26, R28, R29), what an
engine's step neither touches nor learns (R34, R193), and that every step keeps the invariant (R27, R33, R121, R123, R171). -/

namespace Sys2Proof.Machine

/-- Settles O39: the launch evaluates to the reset state, and its one engine to the values of R212. -/
theorem resetValues : Obligations.ResetValues := by
  refine ⟨rfl, rfl, rfl, fun e he => ?_⟩
  obtain rfl : Engine.reset = e := Option.some.inj he
  decide

/-! ### The configuration -/

theorem Engine.SameConfig.refl (e : Engine) : e.SameConfig e :=
  ⟨rfl, rfl, rfl, rfl, rfl, rfl, rfl, rfl⟩

/-- Whoever steps, an engine is still there after the step, with the same configuration. -/
theorem State.stepAs_sameConfig {s t : State} {i j : Nat} {f : Engine} (h : s.stepAs i = .next t) (hf : s.engine? j = some f) :
    ∃ g, t.engine? j = some g ∧ f.SameConfig g := by
  obtain ⟨e, e', ls', he, -, hm, rfl⟩ := State.stepAs_move h
  rw [State.engine?_moved he]
  by_cases hj : j = i
  · subst hj
    obtain rfl : e = f := Option.some.inj (he.symm.trans hf)
    exact ⟨e', if_pos rfl, hm.sameConfig.1⟩
  · exact ⟨f, (if_neg hj).trans hf, .refl f⟩

/-- Whoever steps, an engine that is there after the step was there before it, with the same configuration. -/
theorem State.sameConfig_of_stepAs {s t : State} {i j : Nat} {g : Engine} (h : s.stepAs i = .next t) (hg : t.engine? j = some g) :
    ∃ f, s.engine? j = some f ∧ f.SameConfig g := by
  obtain ⟨e, e', ls', he, -, hm, rfl⟩ := State.stepAs_move h
  rw [State.engine?_moved he] at hg
  split at hg
  · next hj =>
    subst hj
    cases hg
    exact ⟨e, he, hm.sameConfig.1⟩
  · exact ⟨g, hg, .refl g⟩

theorem State.stepAs_links_length {s t : State} {i : Nat} (h : s.stepAs i = .next t) : t.links.length = s.links.length := by
  obtain ⟨e, e', ls', -, -, hm, rfl⟩ := State.stepAs_move h
  exact hm.sameConfig.2

/-- Settles O43: the step of the system is one engine's, whose move keeps the configuration. -/
theorem configurationNeverChanges : Obligations.ConfigurationNeverChanges := by
  intro s t h
  obtain ⟨i, -, hi⟩ := step_stepAs h
  have hlinks : t.links.length = s.chosen.links.length := State.stepAs_links_length hi
  have hconfig : ∀ j e, s.engine? j = some e → ∃ f, t.engine? j = some f ∧ e.SameConfig f :=
    fun _ _ he => State.stepAs_sameConfig hi he
  obtain ⟨-, e', ls', -, -, -, rfl⟩ := State.stepAs_move hi
  exact ⟨rfl, List.length_set, hlinks, hconfig⟩

/-! ### What an engine's step touches and learns -/

/-- Settles O44: a step is one move of its engine, which leaves the links of others alone. -/
theorem engineTouchesOnlyItsOwn : Obligations.EngineTouchesOnlyItsOwn := by
  intro s t i e h he
  obtain ⟨f, e', ls', hf, -, hm, rfl⟩ := State.stepAs_move h
  obtain rfl : e = f := Option.some.inj (he.symm.trans hf)
  exact ⟨fun j hj => (State.engine?_moved he e' ls' j).trans (if_neg hj), hm.otherLinks⟩

/-- Settles O45: links that are the same to the engine look the same to its step, which then does one and the same operation to
both lists of links. -/
theorem engineLearnsOnlyItsOwn : Obligations.EngineLearnsOnlyItsOwn := by
  intro s s' t i e he he' hlinks h
  obtain ⟨f, e', ls', hf, hr, hs, rfl⟩ := State.stepAs_eq_next h
  obtain rfl : e = f := Option.some.inj (he.symm.trans hf)
  obtain ⟨hnone, -⟩ | ⟨_, op, hop, hop', -⟩ := e.stepsAlike s.links s'.links (looksSame_of_eq hlinks)
  · rw [hnone] at hs; cases hs
  · rw [hop] at hs; cases hs
    refine ⟨({ s' with cur := i } : State).moved e' (op.on s'.links), ?_, ?_, fun k hk => op.on_congr _ _ k (hlinks k hk)⟩
    · rw [State.stepAs_answer he' hr, hop']; rfl
    · rw [State.engine?_moved he, State.engine?_moved he', if_pos rfl, if_pos rfl]

/-! ### The invariant -/

/-- The invariant does not see the choice of the engine that steps (log 4). -/
theorem State.Inv.chosen {s : State} (h : s.Inv) : s.chosen.Inv :=
  ⟨h.engines, h.links, ⟨h.wired.vmid, h.wired.sourceLink, h.wired.sinkLink, h.wired.oneReader, h.wired.oneWriter⟩, h.closure⟩

/-- The wiring is part of the configuration: it speaks of nothing but `VMID`, the channel links and the number of links. -/
theorem State.Wired.of_sameConfig {s t : State} (h : s.Wired) (hl : t.links.length = s.links.length)
    (hc : ∀ j f, t.engine? j = some f → ∃ e, s.engine? j = some e ∧ e.SameConfig f) : t.Wired := by
  have before : ∀ {j f}, t.engine? j = some f →
      ∃ e, s.engine? j = some e ∧ f.vmid = e.vmid ∧ f.source = e.source ∧ f.sink = e.sink := by
    intro j f hf
    obtain ⟨e, he, -, hvmid, hsource, hsink, -⟩ := hc j f hf
    exact ⟨e, he, hvmid, hsource, hsink⟩
  constructor
  case vmid =>
    intro i f hf
    obtain ⟨e, he, hv, -⟩ := before hf
    exact hv.trans (h.vmid i e he)
  case sourceLink =>
    intro i f k hf hk
    obtain ⟨e, he, -, hsrc, -⟩ := before hf
    rw [hl]
    exact h.sourceLink i e k he (hsrc ▸ hk)
  case sinkLink =>
    intro i f k hf hk
    obtain ⟨e, he, -, -, hsnk⟩ := before hf
    rw [hl]
    exact h.sinkLink i e k he (hsnk ▸ hk)
  case oneReader =>
    intro i j f g k hf hg hfk hgk
    obtain ⟨e, he, -, hfs, -⟩ := before hf
    obtain ⟨e', he', -, hgs, -⟩ := before hg
    exact h.oneReader i j e e' k he he' (hfs ▸ hfk) (hgs ▸ hgk)
  case oneWriter =>
    intro i j f g k hf hg hfk hgk
    obtain ⟨e, he, -, -, hfs⟩ := before hf
    obtain ⟨e', he', -, -, hgs⟩ := before hg
    exact h.oneWriter i j e e' k he he' (hfs ▸ hfk) (hgs ▸ hgk)

/-- The closure part of the invariant after a step (R121). A move that stays RUNNING closes nothing; one that ends the engine closes
its output link, of which no other engine is the writer. -/
theorem State.Inv.stepAs_closure {s t : State} {i : Nat} (h : s.Inv) (hst : s.stepAs i = .next t) (j : Nat) (f : Engine)
    (k : Nat) (l : Link) (hf : t.engine? j = some f) (hsink : f.sink = .link k) (hl : t.link? k = some l) :
    l.closed = true ↔ f.run ≠ .running := by
  obtain ⟨e, e', ls', he, hr, hm, rfl⟩ := State.stepAs_move hst
  obtain ⟨⟨-, -, -, hsame, -⟩, hlen⟩ := hm.sameConfig
  have hl' : ls'[k]? = some l := hl
  obtain ⟨l0, hl0⟩ : ∃ l0, s.links[k]? = some l0 :=
    ⟨_, List.getElem?_eq_getElem (hlen ▸ (List.getElem?_eq_some_iff.1 hl').1)⟩
  rw [State.engine?_moved he] at hf
  split at hf
  · cases hf
    have hwas := h.closure i e k l0 he (hsame ▸ hsink) hl0
    obtain ⟨hrun, hclosed⟩ | ⟨hrun, rfl⟩ := hm.closure hr
    · rw [hclosed k l0 l hl0 hl', hwas, hr, hrun]
    · rw [closedLinks_get, if_pos (hsame ▸ hsink), hl0] at hl'
      cases hl'
      exact iff_of_true rfl hrun
  · next hji =>
    have hwas := h.closure j f k l0 hf hsink hl0
    obtain ⟨-, hclosed⟩ | ⟨-, rfl⟩ := hm.closure hr
    · rw [hclosed k l0 l hl0 hl', hwas]
    · have hother : e.sink ≠ .link k := fun hk => hji (h.wired.oneWriter j i f e k hf he hsink hk)
      rw [closedLinks_get, if_neg hother, hl0] at hl'
      cases hl'
      exact hwas

/-- Whoever steps, the invariant is kept. -/
theorem State.Inv.stepAs {s t : State} {i : Nat} (h : s.Inv) (hst : s.stepAs i = .next t) : t.Inv := by
  refine ⟨fun j f hf => ?_, fun k l hl => ?_,
    h.wired.of_sameConfig (State.stepAs_links_length hst) (fun _ _ => State.sameConfig_of_stepAs hst), h.stepAs_closure hst⟩
  · obtain ⟨e, e', ls', he, hr, hm, rfl⟩ := State.stepAs_move hst
    rw [State.engine?_moved he] at hf
    split at hf
    · cases hf; exact hm.engineOk hr (h.engines i e he)
    · exact h.engines j f hf
  · obtain ⟨e, e', ls', -, -, hm, rfl⟩ := State.stepAs_move hst
    exact hm.linksOk h.links k l hl

/-- Settles O40: the step of the system is one engine's, which keeps the invariant whichever engine is chosen. -/
theorem stepKeepsInv : Obligations.StepKeepsInv := by
  intro s t h hst
  obtain ⟨i, -, hi⟩ := step_stepAs hst
  exact h.chosen.stepAs hi

end Sys2Proof.Machine
end

section
/-! SUPPORT. The statements of spec/20_memory.md: reads and writes of one word (R52, R53), what a three-operand instruction leaves
unchanged (R60), the next fetch after a store (R62, R224), and what a step can do to a link (R65, R68, R114, R118, R121, R194). -/

namespace Sys2Proof.Machine

/-! ### One word of memory -/

theorem Memory.isSome_read?_iff (m : Memory) (a : Word) : (m.read? a).isSome = true ↔ m.inBounds a = true := by
  rw [Option.isSome_iff_ne_none, ne_eq, Memory.read?_eq_none, Bool.not_eq_false]

theorem Memory.isSome_write?_iff (m : Memory) (a v : Word) : (m.write? a v).isSome = true ↔ m.inBounds a = true := by
  rw [Option.isSome_iff_ne_none, ne_eq, Memory.write?_eq_none, Bool.not_eq_false]

theorem Memory.read?_poke_same {m : Memory} {a : Word} (v : Word) (ha : m.inBounds a = true) :
    (m.poke a.toInt.toNat v).read? a = some v :=
  (m.read?_poke v a ha).trans (if_pos rfl)

theorem Memory.read?_poke_ne {m : Memory} {a b : Word} (v : Word) (ha : m.inBounds a = true) (hb : b ≠ a) :
    (m.poke a.toInt.toNat v).read? b = m.read? b :=
  (m.read?_poke v b ha).trans (if_neg hb)

/-- Settles O10: a write that answers is a poke in bounds, which a read sees at its address alone. -/
theorem memoryReadsAndWrites : Obligations.MemoryReadsAndWrites := by
  intro m a v
  refine ⟨(m.isSome_read?_iff a).trans (m.inBounds_iff a), (m.isSome_write?_iff a v).trans (m.inBounds_iff a), fun m' hw => ?_⟩
  obtain ⟨ha, rfl⟩ := (m.write?_eq_some a v m').1 hw
  exact ⟨rfl, m.read?_poke_same v ha, fun b hb => m.read?_poke_ne v ha hb, fun hwf => Memory.write?_wf hwf hw⟩

/-! ### Instructions with three operands -/

/-- The acting engine after a move of it. -/
theorem State.engine?_cur_moved {s : State} {e : Engine} (he : s.acting? = some e) (e' : Engine) (ls' : List Link) :
    (s.moved e' ls').engine? s.cur = some e' :=
  (State.engine?_moved ((s.acting?_eq_some e).1 he).1 e' ls' s.cur).trans (if_pos rfl)

/-- A move is of the acting engine and the links alone. -/
theorem State.sameElsewhere_moved (s : State) (e' : Engine) (ls' : List Link) : s.SameElsewhere (s.moved e' ls') :=
  ⟨fun j hj => State.engine?_putEngine_ne { s with links := ls' } e' j hj, rfl, rfl, rfl, rfl⟩

/-- Everything a three-operand instruction can answer: a fault, or a store of one word in bounds. -/
theorem State.onEngine_threeOperand_next {s t : State} {e : Engine} {f : Word → Word → Word} {a b : Src} {dst : Word}
    (he : s.acting? = some e) (h : s.onEngine (Engine.threeOperand f a b dst) = .next t) :
    t = s.raise e .outOfBounds ∨ ∃ v, e.mem.inBounds dst = true ∧
      t = s.moved (({ e with mem := e.mem.poke dst.toInt.toNat v } : Engine).advance 4) s.links := by
  rw [State.onEngine_answer _ he, Engine.actAlone] at h
  obtain hc | ⟨x, y, -, -, hd, hc⟩ := Engine.threeOperand_cases f a b dst e
  · rw [hc] at h; cases h
    exact .inl rfl
  · rw [hc] at h; cases h
    exact .inr ⟨f x y, hd, rfl⟩

/-- Settles O25: the four instructions are one shape with four functions, which faults or stores one word. -/
theorem threeOperandFrame : Obligations.ThreeOperandFrame := by
  intro s t e a b dst i he hi h
  obtain ⟨f, hf⟩ : ∃ f, exec i s = s.onEngine (Engine.threeOperand f a b dst) := by
    obtain rfl | rfl | rfl | rfl := hi
    · exact ⟨addWord, rfl⟩
    · exact ⟨mulWord, rfl⟩
    · exact ⟨ltWord, rfl⟩
    · exact ⟨eqWord, rfl⟩
  obtain hfault | ⟨v, hd, rfl⟩ := State.onEngine_threeOperand_next he (hf ▸ h)
  · exact .inl hfault
  · exact .inr ⟨s.sameElsewhere_moved _ _, rfl, _, State.engine?_cur_moved he _ _,
      ⟨rfl, rfl, rfl, rfl, rfl, rfl, rfl, rfl, rfl, rfl⟩, rfl, fun x hx => e.mem.read?_poke_ne v hd hx⟩

/-! ### Reading the input stream -/

/-- With no phase pending an engine fed from its buffer reads the buffer (R112). -/
theorem Engine.chanRead_of_buffer {e : Engine} (ls : List Link) (hp : e.phasePending = false) (hs : e.source = .buffer) :
    e.chanRead ls = e.bufferRead ls := by
  cases hphase : e.phase <;> simp_all [Engine.chanRead, Engine.phasePending]

/-- With no phase pending an engine fed from a link reads that link (R112). -/
theorem Engine.chanRead_of_link {e : Engine} {k : Nat} (ls : List Link) (hp : e.phasePending = false) (hs : e.source = .link k) :
    e.chanRead ls = e.linkRead ls k := by
  cases hphase : e.phase <;> simp_all [Engine.chanRead, Engine.phasePending]

/-- An IN with a good destination whose input cannot deliver takes that fault (R113, R114). -/
theorem exec_input_of_fault {s : State} {e : Engine} {dst : Word} {k : FaultKind} (he : s.acting? = some e)
    (hd : e.mem.inBounds dst = true) (hc : e.chanRead s.links = .fault k) : exec (.input dst) s = .next (s.raise e k) := by
  simp only [exec, execInput, he, hd, if_true, hc]

/-- An IN with a good destination stores the word its input delivers (R110). -/
theorem exec_input_of_word {s : State} {e e' : Engine} {dst v : Word} {ls : List Link} (he : s.acting? = some e)
    (hd : e.mem.inBounds dst = true) (hc : e.chanRead s.links = .word v e' ls) :
    exec (.input dst) s = .next (s.moved
      ((({ e' with mem := e'.mem.poke dst.toInt.toNat v } : Engine).advance 2).traced (.input v)) ls) := by
  simp only [exec, execInput, he, hd, if_true, hc]
  rfl

/-- Reading the input stream touches neither memory nor the run state. -/
theorem Engine.chanRead_word_mem_run {e e' : Engine} {ls ls' : List Link} {v : Word} (h : e.chanRead ls = .word v e' ls') :
    e'.mem = e.mem ∧ e'.run = e.run := by
  obtain ⟨-, rfl, -⟩ | ⟨-, -, -, rfl, -⟩ | ⟨k, l, rest, -, -, -, -, rfl, -⟩ := Engine.chanRead_word h <;> exact ⟨rfl, rfl⟩

/-- Settles O37: by closure the writer's end has closed the link, and a closed empty link cannot deliver (R114). -/
theorem terminatedWriterReleasesReader : Obligations.TerminatedWriterReleasesReader := by
  intro s i j k e f l dst hinv he hf hl hr hfetch hd hp hs hsink hdone hq
  have hclosed : l.closed = true := (hinv.closure j f k l hf hsink hl).2 hdone
  have hread : e.chanRead s.links = .fault .channelClosed := by
    have hl : s.links[k]? = some l := hl
    simp [Engine.chanRead_of_link s.links hp hs, Engine.linkRead, hl, hq, hclosed]
  rw [State.stepAs_of_running he hr, hfetch]
  exact exec_input_of_fault (State.acting?_withCur he hr) hd hread

/-! ### The step of a link -/

/-- What a move can do to link `k`: nothing, or the one operation of its reader, or one of the two of its writer. -/
theorem Move.link_cases {ls ls' : List Link} {e e' : Engine} (h : Move ls e e' ls') {k : Nat} {l : Link}
    (hl : ls[k]? = some l) : ∃ l', ls'[k]? = some l' ∧
      (l' = l ∨
       (e.source = .link k ∧ ∃ v rest, l.q = v :: rest ∧ l' = { l with q := rest }) ∨
       (e.sink = .link k ∧ ∃ v, l' = l.write v) ∨
       (e.sink = .link k ∧ l' = { l with closed := true } ∧ e'.run ≠ .running)) := by
  have hlt : k < ls.length := (List.getElem?_eq_some_iff.1 hl).1
  cases h with
  | pop a v j m rest _ hs hm hq =>
    obtain rfl | hjk := eq_or_ne j k
    · obtain rfl : l = m := Option.some.inj (hl.symm.trans hm)
      exact ⟨_, List.getElem?_set_self hlt, .inr (.inl ⟨hs, v, rest, hq, rfl⟩)⟩
    · exact ⟨l, (List.getElem?_set_ne hjk).trans hl, .inl rfl⟩
  | push v j m hs hm =>
    obtain rfl | hjk := eq_or_ne j k
    · obtain rfl : l = m := Option.some.inj (hl.symm.trans hm)
      exact ⟨_, List.getElem?_set_self hlt, .inr (.inr (.inl ⟨hs, v, rfl⟩))⟩
    · exact ⟨l, (List.getElem?_set_ne hjk).trans hl, .inl rfl⟩
  | stop r hr _ =>
    rw [closedLinks_get, hl]
    by_cases hs : e.sink = .link k
    · exact ⟨_, if_pos hs, .inr (.inr (.inr ⟨hs, rfl, hr⟩))⟩
    · exact ⟨l, if_neg hs, .inl rfl⟩
  | _ => exact ⟨l, hl, .inl rfl⟩

/-- Settles O46: a step is one move of its engine. -/
theorem linkStepIsFifo : Obligations.LinkStepIsFifo := by
  intro s t i k e l h he hl
  obtain ⟨f, e', ls', hf, -, hm, rfl⟩ := State.stepAs_move h
  obtain rfl : e = f := Option.some.inj (he.symm.trans hf)
  obtain ⟨l', hl', hcase⟩ := hm.link_cases hl
  refine ⟨l', hl', ?_⟩
  obtain rfl | ⟨hs, v, rest, hq, rfl⟩ | ⟨hs, v, rfl⟩ | ⟨hs, rfl, hr⟩ := hcase
  · exact .inl rfl
  · exact .inr (.inl ⟨hs, v, hq, rfl, rfl, rfl⟩)
  · exact .inr (.inr (.inl ⟨hs, v, rfl, rfl, rfl, rfl⟩))
  · exact .inr (.inr (.inr ⟨hs, rfl, e', (State.engine?_moved he e' ls' i).trans (if_pos rfl), hr⟩))

/-! ### A store and the next fetch -/

/-- A word that memory reads back at `dst` is what the next fetch sees there: every word of the window is the word its own
address reads. -/
theorem storeSeen_of_read? {s : State} {i : Instr} {dst v : Word} {e e' : Engine} {ls' : List Link} (he : s.acting? = some e)
    (h : exec i s = .next (s.moved e' ls')) (hr : e'.run = .running) (hread : e'.mem.read? dst = some v) :
    StoreSeen s i dst v := by
  refine ⟨_, e', h, State.engine?_cur_moved he e' ls', hr, hread, ?_, ?_⟩
  · rintro rfl
    exact ⟨e'.mem.window 3 (e'.ip + 1), by simp only [Memory.window, hread]⟩
  · intro k w hw hk
    rw [wrap_toInt_add] at hk
    have hwread := Memory.read?_of_window e'.mem 4 k e'.ip w hw
    rw [hk, hread] at hwread
    exact (Option.some.inj hwread).symm

/-- With readable sources and a destination in bounds a three-operand instruction completes and its result is seen. -/
theorem storeSeen_threeOperand {s : State} {e : Engine} {i : Instr} {f : Word → Word → Word} {a b : Src} {dst x y v : Word}
    (he : s.acting? = some e) (hd : e.mem.inBounds dst = true) (ha : e.val? a = some x) (hb : e.val? b = some y)
    (hi : exec i s = s.onEngine (Engine.threeOperand f a b dst)) (hv : f x y = v) : StoreSeen s i dst v := by
  subst hv
  have hw : e.mem.write? dst (f x y) = some (e.mem.poke dst.toInt.toNat (f x y)) := (Memory.write?_eq_some ..).2 ⟨hd, rfl⟩
  have hexec : exec i s
      = .next (s.moved (({ e with mem := e.mem.poke dst.toInt.toNat (f x y) } : Engine).advance 4) s.links) := by
    rw [hi, State.onEngine_answer _ he]
    simp only [Engine.actAlone, Engine.threeOperand, ha, hb, hw, State.answer]
  exact storeSeen_of_read? he hexec ((s.acting?_eq_some e).1 he).2 (Memory.read?_poke_same _ hd)

theorem ltWord_eq (x y : Word) : ltWord x y = if x.toInt < y.toInt then 1 else 0 := by
  simp [ltWord, truthWord]

theorem eqWord_eq (x y : Word) : eqWord x y = if x = y then 1 else 0 := by
  simp [eqWord, truthWord, BitVec.toInt_inj]

/-- With no phase pending the stream of an engine fed from its buffer is what the buffer still holds (R125). -/
theorem Engine.stream_of_buffer {e : Engine} (ls : List Link) (hp : e.phasePending = false) (hs : e.source = .buffer) :
    e.stream ls = e.ibuf.drop e.ipos := by
  cases hphase : e.phase <;> simp_all [Engine.stream, Engine.phasePending]

/-- With no phase pending the stream of an engine fed from a link is what waits in the link (R125). -/
theorem Engine.stream_of_link {e : Engine} {k : Nat} (ls : List Link) (hp : e.phasePending = false) (hs : e.source = .link k) :
    e.stream ls = (ls[k]?.map Link.q).getD [] := by
  cases hphase : e.phase <;> cases hl : ls[k]? <;> simp_all [Engine.stream, Engine.phasePending]

/-- A word at the head of the input stream is the one the next read delivers (R112, R125). -/
theorem Engine.chanRead_of_stream {e : Engine} {ls : List Link} {v : Word} {rest : List Word} (h : e.stream ls = v :: rest) :
    ∃ e' ls', e.chanRead ls = .word v e' ls' := by
  cases hp : e.phasePending with
  | true => cases hphase : e.phase <;> simp_all [Engine.phasePending, Engine.stream, Engine.chanRead]
  | false =>
    cases hs : e.source with
    | buffer =>
      rw [Engine.stream_of_buffer ls hp hs] at h
      have hv : e.ibuf[e.ipos]? = some v := by rw [← List.head?_drop, h, List.head?_cons]
      rw [Engine.chanRead_of_buffer ls hp hs]
      exact ⟨{ e with ipos := e.ipos + 1 }, ls, by simp only [Engine.bufferRead, hv]⟩
    | link k =>
      rw [Engine.stream_of_link ls hp hs] at h
      rw [Engine.chanRead_of_link ls hp hs]
      cases hl : ls[k]? with
      | none => rw [hl] at h; cases h
      | some l =>
        have hq : l.q = v :: rest := by simpa [hl] using h
        exact ⟨e, ls.set k { l with q := rest }, by simp only [Engine.linkRead, hl, hq]⟩

/-- An IN with a good destination and a word to receive completes and its word is seen. -/
theorem storeSeen_input {s : State} {e : Engine} {dst v : Word} {rest : List Word} (he : s.acting? = some e)
    (hd : e.mem.inBounds dst = true) (h : e.stream s.links = v :: rest) : StoreSeen s (.input dst) dst v := by
  obtain ⟨e', ls', hc⟩ := Engine.chanRead_of_stream h
  obtain ⟨hmem, hrun⟩ := Engine.chanRead_word_mem_run hc
  exact storeSeen_of_read? he (exec_input_of_word he hd hc) (hrun.trans ((s.acting?_eq_some e).1 he).2)
    (Memory.read?_poke_same v (hmem ▸ hd))

/-- Settles O49: each of the five completes with its word stored at the destination, and a fetch is a read of memory. -/
theorem storeSeenByNextFetch : Obligations.StoreSeenByNextFetch := by
  intro s e dst he hd
  refine ⟨fun a b x y ha hb => ⟨?_, ?_, ?_, ?_⟩, fun v rest h => storeSeen_input he hd h⟩
  · exact storeSeen_threeOperand (f := addWord) he hd ha hb rfl rfl
  · exact storeSeen_threeOperand (f := mulWord) he hd ha hb rfl rfl
  · exact storeSeen_threeOperand (f := ltWord) he hd ha hb rfl (ltWord_eq x y)
  · exact storeSeen_threeOperand (f := eqWord) he hd ha hb rfl (eqWord_eq x y)

end Sys2Proof.Machine
end

section
/-! SUPPORT. The statements of spec/30_encoding.md about words and instructions: decoding what was encoded and encoding what was
decoded (R80, R83, R96), the fields of a word (R81, R82), the rejected words (R87, R88, R92, R94) and the ignored digits (R86). -/

namespace Sys2Proof

/-! ### An instruction as the words of its encoding -/

/-- The digit of the first source operand, 0 if there is none (R96). -/
def Instr.mode0 : Instr → Nat
  | .add a _ _ | .mul a _ _ | .lt a _ _ | .eq a _ _ | .jnz a _ | .jz a _ | .output a => a.digit
  | .input _ | .hlt => 0

/-- The digit of the second source operand, 0 if there is none (R96). -/
def Instr.mode1 : Instr → Nat
  | .add _ b _ | .mul _ b _ | .lt _ b _ | .eq _ b _ | .jnz _ b | .jz _ b => b.digit
  | .input _ | .output _ | .hlt => 0

/-- The operand words (R83). -/
def Instr.operandWords : Instr → List Word
  | .add a b dst | .mul a b dst | .lt a b dst | .eq a b dst => [a.word, b.word, dst]
  | .jnz a t | .jz a t => [a.word, t.word]
  | .output a => [a.word]
  | .input dst => [dst]
  | .hlt => []

theorem encode_eq_cons (i : Instr) : encode i = canonicalWord i.opcode i.mode0 i.mode1 :: i.operandWords := by
  cases i <;> rfl

@[simp] theorem Instr.length_operandWords (i : Instr) : i.operandWords.length = i.opcode.operands := by
  cases i <;> rfl

theorem Instr.mode0_lt (i : Instr) : i.mode0 < 2 := by
  cases i with
  | input _ | hlt => exact Nat.zero_lt_two
  | _ => exact Src.digit_lt _

theorem Instr.mode1_lt (i : Instr) : i.mode1 < 2 := by
  cases i with
  | input _ | output _ | hlt => exact Nat.zero_lt_two
  | _ => exact Src.digit_lt _

/-- The fields of the word that the encoder writes. -/
theorem decodeFields_encode_head (i : Instr) :
    decodeFields (canonicalWord i.opcode i.mode0 i.mode1) = ⟨i.opcode.code, i.mode0, i.mode1, 0⟩ :=
  decodeFields_canonicalWord _ _ _ i.mode0_lt i.mode1_lt

/-! ### When each format decodes, and to what -/

/-- A digit that selects a mode is the digit of the source operand which that mode makes of any word. -/
theorem Mode.ofDigit?_eq_some_iff_src {z : Int} {m : Mode} (p : Word) : Mode.ofDigit? z = some m ↔ z = (m.src p).digit := by
  rw [Mode.ofDigit?_eq_some, Mode.src_digit]

theorem decodeF3_eq_ok_iff {mk : Src → Src → Word → Instr} {f : Fields} {ps rest : List Word} {i : Instr} :
    decodeF3 mk f ps = .ok (i, rest) ↔ ∃ a b dst,
      f.mode0 = a.digit ∧ f.mode1 = b.digit ∧ ps = a.word :: b.word :: dst :: rest ∧ i = mk a b dst := by
  constructor
  · intro h
    unfold decodeF3 at h
    split at h
    · next m n hm hn =>
      split at h
      · next p0 p1 p2 rest' =>
        cases h
        exact ⟨m.src p0, n.src p1, p2, (Mode.ofDigit?_eq_some_iff_src p0).1 hm, (Mode.ofDigit?_eq_some_iff_src p1).1 hn,
          by simp, rfl⟩
      · cases h
    · cases h
  · rintro ⟨a, b, dst, ha, hb, rfl, rfl⟩
    simp [decodeF3, ha, hb]

theorem decodeF2J_eq_ok_iff {mk : Src → Src → Instr} {f : Fields} {ps rest : List Word} {i : Instr} :
    decodeF2J mk f ps = .ok (i, rest) ↔ ∃ a t,
      f.mode0 = a.digit ∧ f.mode1 = t.digit ∧ ps = a.word :: t.word :: rest ∧ i = mk a t := by
  constructor
  · intro h
    unfold decodeF2J at h
    split at h
    · next m n hm hn =>
      split at h
      · next p0 p1 rest' =>
        cases h
        exact ⟨m.src p0, n.src p1, (Mode.ofDigit?_eq_some_iff_src p0).1 hm, (Mode.ofDigit?_eq_some_iff_src p1).1 hn,
          by simp, rfl⟩
      · cases h
    · cases h
  · rintro ⟨a, t, ha, ht, rfl, rfl⟩
    simp [decodeF2J, ha, ht]

theorem decodeF1S_eq_ok_iff {mk : Src → Instr} {f : Fields} {ps rest : List Word} {i : Instr} :
    decodeF1S mk f ps = .ok (i, rest) ↔ ∃ a, f.mode0 = a.digit ∧ ps = a.word :: rest ∧ i = mk a := by
  constructor
  · intro h
    unfold decodeF1S at h
    split at h
    · next m hm =>
      split at h
      · next p0 rest' =>
        cases h
        exact ⟨m.src p0, (Mode.ofDigit?_eq_some_iff_src p0).1 hm, by simp, rfl⟩
      · cases h
    · cases h
  · rintro ⟨a, ha, rfl, rfl⟩
    simp [decodeF1S, ha]

theorem decodeF1D_eq_ok_iff {mk : Word → Instr} {ps rest : List Word} {i : Instr} :
    decodeF1D mk ps = .ok (i, rest) ↔ ∃ dst, ps = dst :: rest ∧ i = mk dst := by
  cases ps <;> simp [decodeF1D, and_comm, eq_comm]

/-- What decodes to an instruction: its opcode field, its consulted digits and its operand words, and nothing else. -/
theorem decodeOperands_eq_ok_iff {o : Opcode} {f : Fields} {ps rest : List Word} {i : Instr} :
    decodeOperands o f ps = .ok (i, rest) ↔ i.opcode = o ∧ ps = i.operandWords ++ rest ∧
      (1 ≤ o.sources → f.mode0 = i.mode0) ∧ (2 ≤ o.sources → f.mode1 = i.mode1) := by
  constructor
  · intro h
    cases o with
    | add | mul | lt | eq =>
      obtain ⟨a, b, dst, ha, hb, rfl, rfl⟩ := decodeF3_eq_ok_iff.1 h
      exact ⟨rfl, rfl, fun _ => ha, fun _ => hb⟩
    | jnz | jz =>
      obtain ⟨a, t, ha, ht, rfl, rfl⟩ := decodeF2J_eq_ok_iff.1 h
      exact ⟨rfl, rfl, fun _ => ha, fun _ => ht⟩
    | output =>
      obtain ⟨a, ha, rfl, rfl⟩ := decodeF1S_eq_ok_iff.1 h
      exact ⟨rfl, rfl, fun _ => ha, fun h2 => absurd h2 (by decide)⟩
    | input =>
      obtain ⟨dst, rfl, rfl⟩ := decodeF1D_eq_ok_iff.1 h
      exact ⟨rfl, rfl, fun h1 => absurd h1 (by decide), fun h2 => absurd h2 (by decide)⟩
    | hlt =>
      cases h
      exact ⟨rfl, rfl, fun h1 => absurd h1 (by decide), fun h2 => absurd h2 (by decide)⟩
  · rintro ⟨rfl, rfl, h0, h1⟩
    cases i with
    | add a b dst | mul a b dst | lt a b dst | eq a b dst =>
      exact decodeF3_eq_ok_iff.2 ⟨a, b, dst, h0 one_le_two, h1 le_rfl, rfl, rfl⟩
    | jnz a t | jz a t => exact decodeF2J_eq_ok_iff.2 ⟨a, t, h0 one_le_two, h1 le_rfl, rfl, rfl⟩
    | output a => exact decodeF1S_eq_ok_iff.2 ⟨a, h0 le_rfl, rfl, rfl⟩
    | input dst => exact decodeF1D_eq_ok_iff.2 ⟨dst, rfl, rfl⟩
    | hlt => rfl

theorem decode_cons_eq_ok_iff {w : Word} {ps rest : List Word} {i : Instr} :
    decode (w :: ps) = .ok (i, rest) ↔ (decodeFields w).opcode = i.opcode.code ∧ ps = i.operandWords ++ rest ∧
      (1 ≤ i.opcode.sources → (decodeFields w).mode0 = i.mode0) ∧
      (2 ≤ i.opcode.sources → (decodeFields w).mode1 = i.mode1) := by
  constructor
  · intro h
    by_cases hop : ∃ o : Opcode, (decodeFields w).opcode = o.code
    · obtain ⟨o, ho⟩ := hop
      rw [decode_of_opcode ho, decodeOperands_eq_ok_iff] at h
      obtain ⟨rfl, hps, hmodes⟩ := h
      exact ⟨ho, hps, hmodes⟩
    · rw [decode_of_no_opcode (not_exists.1 hop)] at h
      cases h
  · rintro ⟨ho, hps, hmodes⟩
    rw [decode_of_opcode ho, decodeOperands_eq_ok_iff]
    exact ⟨rfl, hps, hmodes⟩

theorem Opcode.operands_lt (o : Opcode) : o.operands < 4 := by cases o <;> decide

/-- No instruction is longer than the four words that a fetch reads (R83). -/
theorem length_le_of_decode {ws : List Word} {i : Instr} (h : decode ws = .ok (i, [])) : ws.length ≤ 4 := by
  cases ws with
  | nil => exact Nat.zero_le 4
  | cons w ps =>
    obtain ⟨-, rfl, -⟩ := decode_cons_eq_ok_iff.1 h
    simpa using i.opcode.operands_lt

/-- Settles O3: the encoder writes the fields and the operand words that the decoder wants. -/
theorem decodeOfEncode : Obligations.DecodeOfEncode := by
  intro i rest
  rw [encode_eq_cons, List.cons_append, decode_cons_eq_ok_iff, decodeFields_encode_head]
  exact ⟨rfl, rfl, fun _ => rfl, fun _ => rfl⟩

/-- Settles O4: the word is the canonical one, whose fields are the opcode and the digits that the decoder consulted. -/
theorem encodeOfDecode : Obligations.EncodeOfDecode := by
  intro w ps i rest h
  obtain ⟨hop, hps, h0, h1⟩ := decode_cons_eq_ok_iff.1 h
  refine ⟨canonicalWord i.opcode i.mode0 i.mode1, by rw [encode_eq_cons, List.cons_append, hps], ?_⟩
  rw [decodeFields_encode_head]
  exact ⟨hop.symm, hop, fun hs => (h0 hs).symm, fun hs => (h1 hs).symm⟩

/-! ### The worked examples -/

theorem spells_encode (i : Instr) : Spells i (encode i) :=
  ⟨rfl, (congrArg decode (List.append_nil _).symm).trans (decodeOfEncode i [])⟩

/-- Settles O2: the words are what the encoder evaluates to, and what is encoded decodes. -/
theorem assemblyExamplesSpell : Obligations.AssemblyExamplesSpell :=
  ⟨spells_encode _, spells_encode _, spells_encode _, spells_encode _, spells_encode _, spells_encode _, spells_encode _,
    spells_encode _, spells_encode _, spells_encode _, spells_encode _⟩

/-! ### The fields of a word -/

/-- For a word that is not negative the truncating divisions of R81 are the Euclidean ones. -/
theorem decodeFields_of_nonneg {w : Word} (hw : 0 ≤ w.toInt) :
    decodeFields w = ⟨w.toInt % 100, w.toInt / 100 % 10, w.toInt / 1000 % 10, w.toInt / 10000⟩ := by
  have hdiv (n : Int) (hn : 0 ≤ n) : 0 ≤ w.toInt / n := Int.ediv_nonneg hw hn
  simp only [decodeFields, trem, tdiv, Int.tdiv_eq_ediv_of_nonneg hw, Int.tmod_eq_emod_of_nonneg hw,
    Int.tmod_eq_emod_of_nonneg (hdiv 100 (by decide)), Int.tmod_eq_emod_of_nonneg (hdiv 1000 (by decide))]

/-- Settles O5: with Euclidean division the four fields are the word's decimal digits. -/
theorem fieldsRebuildWord : Obligations.FieldsRebuildWord := by
  intro w hw
  simp only [decodeFields_of_nonneg hw]
  omega

theorem decodeFields_opcode_of_neg {w : Word} (hw : w.toInt < 0) :
    -99 ≤ (decodeFields w).opcode ∧ (decodeFields w).opcode ≤ 0 := by
  have hlt : -100 < w.toInt.tmod 100 := Int.lt_tmod_of_pos _ (by decide)
  have hle : 0 ≤ (-w.toInt).tmod 100 := Int.tmod_nonneg _ (by omega)
  rw [Int.neg_tmod, Int.neg_nonneg] at hle
  exact ⟨hlt, hle⟩

theorem Opcode.code_pos (o : Opcode) : 0 < o.code := by cases o <;> decide

/-! ### Which words are rejected -/

/-- The digits that opcode `o` consults are 0 or 1 (R88). -/
def Fields.ModesOkFor (f : Fields) (o : Opcode) : Prop :=
  (1 ≤ o.sources → f.mode0 = 0 ∨ f.mode0 = 1) ∧ (2 ≤ o.sources → f.mode1 = 0 ∨ f.mode1 = 1)

theorem Fields.modesOk_iff_of_opcode {f : Fields} {o : Opcode} (ho : f.opcode = o.code) :
    f.modesOk = true ↔ f.ModesOkFor o := by
  rw [Fields.modesOk_iff]
  refine ⟨fun h => h o ho, fun h p hp => ?_⟩
  obtain rfl : o = p := Opcode.code_inj (Int.ofNat_inj.1 (ho.symm.trans hp))
  exact h

theorem Fields.not_modesOkFor_iff {f : Fields} {o : Opcode} : ¬ f.ModesOkFor o ↔
    (1 ≤ o.sources ∧ f.mode0 ≠ 0 ∧ f.mode0 ≠ 1) ∨ (2 ≤ o.sources ∧ f.mode1 ≠ 0 ∧ f.mode1 ≠ 1) := by
  simp only [Fields.ModesOkFor, not_and_or, Classical.not_imp, not_or]

/-- Three answers that exclude each other: a consulted digit is bad, or fewer than `n` operand words are there, or neither and an
instruction is decoded. This is the order of R92. -/
def Verdict (modesOk : Prop) (n : Nat) (ps : List Word) (r : Except Reject (Instr × List Word)) : Prop :=
  (¬ modesOk ∧ r = .error .reservedMode) ∨
  (modesOk ∧ ps.length < n ∧ r = .error .truncated) ∨
  (modesOk ∧ n ≤ ps.length ∧ ∃ x, r = .ok x)

theorem Mode.isSome_ofDigit?_iff (z : Int) : (Mode.ofDigit? z).isSome ↔ z = 0 ∨ z = 1 := by
  rw [Option.isSome_iff_ne_none, ne_eq, Mode.ofDigit?_eq_none, ← not_or, not_not]

theorem decodeF3_verdict (mk : Src → Src → Word → Instr) (f : Fields) (ps : List Word) :
    Verdict ((f.mode0 = 0 ∨ f.mode0 = 1) ∧ (f.mode1 = 0 ∨ f.mode1 = 1)) 3 ps (decodeF3 mk f ps) := by
  simp only [← Mode.isSome_ofDigit?_iff, decodeF3]
  cases Mode.ofDigit? f.mode0 with
  | none => exact .inl ⟨by simp, rfl⟩
  | some m =>
    cases Mode.ofDigit? f.mode1 with
    | none => exact .inl ⟨by simp, rfl⟩
    | some n =>
      match ps with
      | [] | [_] | [_, _] => exact .inr (.inl ⟨by simp, by simp, rfl⟩)
      | _ :: _ :: _ :: _ => exact .inr (.inr ⟨by simp, by simp, _, rfl⟩)

theorem decodeF2J_verdict (mk : Src → Src → Instr) (f : Fields) (ps : List Word) :
    Verdict ((f.mode0 = 0 ∨ f.mode0 = 1) ∧ (f.mode1 = 0 ∨ f.mode1 = 1)) 2 ps (decodeF2J mk f ps) := by
  simp only [← Mode.isSome_ofDigit?_iff, decodeF2J]
  cases Mode.ofDigit? f.mode0 with
  | none => exact .inl ⟨by simp, rfl⟩
  | some m =>
    cases Mode.ofDigit? f.mode1 with
    | none => exact .inl ⟨by simp, rfl⟩
    | some n =>
      match ps with
      | [] | [_] => exact .inr (.inl ⟨by simp, by simp, rfl⟩)
      | _ :: _ :: _ => exact .inr (.inr ⟨by simp, by simp, _, rfl⟩)

theorem decodeF1S_verdict (mk : Src → Instr) (f : Fields) (ps : List Word) :
    Verdict (f.mode0 = 0 ∨ f.mode0 = 1) 1 ps (decodeF1S mk f ps) := by
  simp only [← Mode.isSome_ofDigit?_iff, decodeF1S]
  cases Mode.ofDigit? f.mode0 with
  | none => exact .inl ⟨by simp, rfl⟩
  | some m =>
    cases ps with
    | nil => exact .inr (.inl ⟨by simp, by simp, rfl⟩)
    | cons p rest => exact .inr (.inr ⟨by simp, by simp, _, rfl⟩)

theorem decodeF1D_verdict (mk : Word → Instr) (ps : List Word) : Verdict True 1 ps (decodeF1D mk ps) := by
  cases ps with
  | nil => exact .inr (.inl ⟨trivial, by simp, rfl⟩)
  | cons p rest => exact .inr (.inr ⟨trivial, by simp, _, rfl⟩)

/-- Everything the operand decoder can answer. -/
theorem decodeOperands_verdict (o : Opcode) (f : Fields) (ps : List Word) :
    Verdict (f.ModesOkFor o) o.operands ps (decodeOperands o f ps) := by
  cases o with
  | add | mul | lt | eq => simpa [Fields.ModesOkFor, Opcode.sources, Opcode.operands, decodeOperands] using decodeF3_verdict _ f ps
  | jnz | jz => simpa [Fields.ModesOkFor, Opcode.sources, Opcode.operands, decodeOperands] using decodeF2J_verdict _ f ps
  | output => simpa [Fields.ModesOkFor, Opcode.sources, Opcode.operands, decodeOperands] using decodeF1S_verdict _ f ps
  | input => simpa [Fields.ModesOkFor, Opcode.sources, Opcode.operands, decodeOperands] using decodeF1D_verdict _ ps
  | hlt => exact .inr (.inr ⟨by simp [Fields.ModesOkFor, Opcode.sources], Nat.zero_le _, _, rfl⟩)

theorem decode_verdict {w : Word} {o : Opcode} (ho : (decodeFields w).opcode = o.code) (ps : List Word) :
    Verdict ((decodeFields w).ModesOkFor o) o.operands ps (decode (w :: ps)) :=
  decode_of_opcode ho ps ▸ decodeOperands_verdict o (decodeFields w) ps

theorem Verdict.ne_invalidOpcode {ok : Prop} {n : Nat} {ps : List Word} {r : Except Reject (Instr × List Word)}
    (h : Verdict ok n ps r) : r ≠ .error .invalidOpcode := by
  obtain ⟨-, rfl⟩ | ⟨-, -, rfl⟩ | ⟨-, -, x, rfl⟩ := h <;> simp

theorem Verdict.reservedMode_iff {ok : Prop} {n : Nat} {ps : List Word} {r : Except Reject (Instr × List Word)}
    (h : Verdict ok n ps r) : r = .error .reservedMode ↔ ¬ ok := by
  obtain ⟨hok, rfl⟩ | ⟨hok, -, rfl⟩ | ⟨hok, -, x, rfl⟩ := h <;> simp [hok]

theorem Verdict.truncated_iff {ok : Prop} {n : Nat} {ps : List Word} {r : Except Reject (Instr × List Word)}
    (h : Verdict ok n ps r) : r = .error .truncated ↔ ps.length < n ∧ ok := by
  obtain ⟨hok, rfl⟩ | ⟨hok, hn, rfl⟩ | ⟨hok, hn, x, rfl⟩ := h
  · simp [hok]
  · simp [hok, hn]
  · simp [hok, hn]

/-- A word has at most one opcode, so a rejection other than of the opcode may be read off opcode by opcode. -/
theorem decode_eq_error_iff {w : Word} {ps : List Word} {r : Reject} {P : Opcode → Prop} (hr : r ≠ .invalidOpcode)
    (hP : ∀ o : Opcode, (decodeFields w).opcode = o.code → (decode (w :: ps) = .error r ↔ P o)) :
    decode (w :: ps) = .error r ↔ ∃ o : Opcode, (decodeFields w).opcode = o.code ∧ P o := by
  by_cases h : ∃ o : Opcode, (decodeFields w).opcode = o.code
  · obtain ⟨o, ho⟩ := h
    refine (hP o ho).trans ⟨fun hp => ⟨o, ho, hp⟩, ?_⟩
    rintro ⟨p, hp, hPp⟩
    exact (hP o ho).1 ((hP p hp).2 hPp)
  · rw [decode_of_no_opcode (not_exists.1 h)]
    refine iff_of_false (fun he => hr ?_) fun ⟨o, ho, _⟩ => h ⟨o, ho⟩
    cases he
    rfl

/-- Settles O7: a valid opcode leaves the operand decoder's three answers, and without one there is nothing to decode. -/
theorem decodeVerdicts : Obligations.DecodeVerdicts := by
  intro w ps
  refine ⟨⟨fun h o ho => (decode_verdict ho ps).ne_invalidOpcode h, fun h => decode_of_no_opcode h ps⟩, ?_, ?_⟩
  · exact decode_eq_error_iff (by decide) fun o ho =>
      (decode_verdict ho ps).reservedMode_iff.trans Fields.not_modesOkFor_iff
  · exact decode_eq_error_iff (by decide) fun o ho => (decode_verdict ho ps).truncated_iff

/-! ### Ignored digits -/

/-- The operand decoder looks only at the digits it consults (R86). -/
theorem decodeOperands_congr {o : Opcode} {f g : Fields} (h0 : 1 ≤ o.sources → f.mode0 = g.mode0)
    (h1 : 2 ≤ o.sources → f.mode1 = g.mode1) (ps : List Word) : decodeOperands o f ps = decodeOperands o g ps := by
  cases o with
  | add | mul | lt | eq => simp only [decodeOperands, decodeF3, h0 one_le_two, h1 le_rfl]
  | jnz | jz => simp only [decodeOperands, decodeF2J, h0 one_le_two, h1 le_rfl]
  | output => simp only [decodeOperands, decodeF1S, h0 le_rfl]
  | input | hlt => rfl

theorem decode_congr {v w : Word} (hop : (decodeFields v).opcode = (decodeFields w).opcode)
    (hmodes : ∀ o : Opcode, (decodeFields w).opcode = o.code →
      (1 ≤ o.sources → (decodeFields v).mode0 = (decodeFields w).mode0) ∧
      (2 ≤ o.sources → (decodeFields v).mode1 = (decodeFields w).mode1)) (ps : List Word) :
    decode (v :: ps) = decode (w :: ps) := by
  by_cases h : ∃ o : Opcode, (decodeFields w).opcode = o.code
  · obtain ⟨o, ho⟩ := h
    obtain ⟨h0, h1⟩ := hmodes o ho
    rw [decode_of_opcode ho, decode_of_opcode (hop.trans ho), decodeOperands_congr h0 h1]
  · have hw := not_exists.1 h
    rw [decode_of_no_opcode hw, decode_of_no_opcode (hop ▸ hw)]

/-- Settles O8: the decoder looks only at the opcode field and the consulted digits, which the examples share. -/
theorem ignoredDigitsIgnored : Obligations.IgnoredDigitsIgnored := by
  have hadd : ∀ w ∈ ([1, 10001, 20001, 100001] : List Word),
      (decodeFields w).opcode = 1 ∧ (decodeFields w).mode0 = 0 ∧ (decodeFields w).mode1 = 0 := by
    intro w hw
    simp only [List.mem_cons, List.not_mem_nil, or_false] at hw
    obtain rfl | rfl | rfl | rfl := hw <;> decide
  have hinput : ∀ w ∈ ([3, 103] : List Word), (decodeFields w).opcode = 3 := by
    intro w hw
    simp only [List.mem_cons, List.not_mem_nil, or_false] at hw
    obtain rfl | rfl := hw <;> decide
  refine ⟨fun v w ps hop hmodes => decode_congr hop hmodes ps, fun w p0 p1 p2 rest hw => ?_, fun w p0 rest hw => ?_⟩
  · obtain ⟨hop, h0, h1⟩ := hadd w hw
    exact decode_cons_eq_ok_iff.2 ⟨hop, rfl, fun _ => h0, fun _ => h1⟩
  · exact decode_cons_eq_ok_iff.2 ⟨hinput w hw, rfl, fun h => absurd h (Nat.not_succ_le_zero 0),
      fun h => absurd h (Nat.not_succ_le_zero 1)⟩

end Sys2Proof
end

section
/-! SUPPORT. The statements of spec/30_encoding.md about fetching and stepping: which instruction or fault a fetch gives (R92, R93, R94,
R97, R172, R176, R180), and that an engine which may step does step (R191). -/

namespace Sys2Proof.Machine

/-! ### The words that a fetch reads -/

/-- A readable word at `IP` is the first of those the fetch decodes. -/
theorem Memory.window_of_read? {m : Memory} {a w : Word} (n : Nat) (h : m.read? a = some w) :
    m.window (n + 1) a = w :: m.window n (a + 1) := by
  simp only [Memory.window, h]

theorem Engine.fetch_of_decode_ok {e : Engine} {i : Instr} {rest : List Word}
    (h : decode (e.mem.window 4 e.ip) = .ok (i, rest)) : e.fetch = .ok i := by
  simp only [Engine.fetch, h]

theorem Engine.fetch_of_decode_error {e : Engine} {r : Reject} (h : decode (e.mem.window 4 e.ip) = .error r) :
    e.fetch = .error (.ofReject r) := by
  simp only [Engine.fetch, h]

/-- Settles O31: words at `IP`, `IP` + 1, .. are the first of the window, and what follows an instruction's words does not matter. -/
theorem fetchReadsPlacedWords : Obligations.FetchReadsPlacedWords := by
  intro e ws i hdec hread
  obtain ⟨more, hmore⟩ := Memory.window_of_words e.mem ws 4 e.ip (length_le_of_decode hdec) fun k w hw =>
    wrap_toInt_add e.ip k ▸ hread k w hw
  exact Engine.fetch_of_decode_ok (hmore ▸ decode_append more hdec)

/-! ### Which fault a fetch raises -/

theorem Engine.fetch_of_ip_outOfBounds {e : Engine} (h : e.mem.inBounds e.ip = false) : e.fetch = .error .outOfBounds := by
  have hnil : e.mem.window 4 e.ip = [] := by simp only [Memory.window, (e.mem.read?_eq_none e.ip).2 h]
  exact Engine.fetch_of_decode_error (r := .truncated) (hnil ▸ rfl)

theorem Engine.fetch_of_no_opcode {e : Engine} {w : Word} (hw : e.mem.read? e.ip = some w)
    (h : ∀ o : Opcode, (decodeFields w).opcode ≠ o.code) : e.fetch = .error .invalidOpcode :=
  Engine.fetch_of_decode_error (Memory.window_of_read? 3 hw ▸ decode_of_no_opcode h _)

theorem Engine.fetch_of_reservedMode {e : Engine} {w : Word} {o : Opcode} (hw : e.mem.read? e.ip = some w)
    (ho : (decodeFields w).opcode = o.code) (h : ¬ (decodeFields w).ModesOkFor o) : e.fetch = .error .reservedMode :=
  Engine.fetch_of_decode_error (Memory.window_of_read? 3 hw ▸ (decode_verdict ho _).reservedMode_iff.2 h)

/-- An operand word outside the image ends the window before the instruction's last word (R93, R94). -/
theorem Engine.fetch_of_operand_outOfBounds {e : Engine} {w : Word} {o : Opcode} {k : Nat} (hw : e.mem.read? e.ip = some w)
    (ho : (decodeFields w).opcode = o.code) (hm : (decodeFields w).ModesOkFor o) (hk : k ≤ o.operands)
    (hout : e.mem.inBounds (wrap (e.ip.toInt + k)) = false) : e.fetch = .error .outOfBounds := by
  rw [wrap_toInt_add, ← Memory.read?_eq_none] at hout
  have hlen := e.mem.window_length_le k 4 e.ip hout
  rw [Memory.window_of_read? 3 hw, List.length_cons] at hlen
  have hshort : (e.mem.window 3 (e.ip + 1)).length < o.operands := by omega
  exact Engine.fetch_of_decode_error (r := .truncated)
    (Memory.window_of_read? 3 hw ▸ (decode_verdict ho _).truncated_iff.2 ⟨hshort, hm⟩)

/-- Settles O32: each clause is one answer of the decoder on the words at `IP`. -/
theorem fetchFaultPriority : Obligations.FetchFaultPriority := by
  intro e
  refine ⟨Engine.fetch_of_ip_outOfBounds, fun w hw => ⟨Engine.fetch_of_no_opcode hw, fun hop hmodes => ?_, ?_⟩⟩
  · obtain ⟨o, ho⟩ := (Fields.opcodeOk_iff _).1 hop
    refine Engine.fetch_of_reservedMode hw ho fun h => ?_
    rw [← Fields.modesOk_iff_of_opcode ho, hmodes] at h
    cases h
  · exact fun o k ho hmodes _ hk hout =>
      Engine.fetch_of_operand_outOfBounds hw ho ((Fields.modesOk_iff_of_opcode ho).1 hmodes) hk hout

/-! ### Words with no opcode -/

theorem raisesInvalidOpcode_of_no_opcode {w : Word} (h : ∀ o : Opcode, (decodeFields w).opcode ≠ o.code) :
    RaisesInvalidOpcode w := by
  intro s e he hw
  obtain ⟨hcur, hr⟩ := (s.acting?_eq_some e).1 he
  rw [State.stepAs_of_running hcur hr, Engine.fetch_of_no_opcode hw h]

/-- Settles O6: a negative word has an opcode field below every opcode; for the others all three conventions of division agree. -/
theorem negativeWordsInvalid : Obligations.NegativeWordsInvalid := by
  refine ⟨fun w hw => ?_, fun w hw => ?_⟩
  · obtain ⟨hlow, hhigh⟩ := decodeFields_opcode_of_neg hw
    refine ⟨hlow, hhigh, raisesInvalidOpcode_of_no_opcode fun o ho => ?_⟩
    have := o.code_pos
    omega
  · obtain ⟨-, h0, -, h1, -, h2, -, h3⟩ := fieldsRebuildWord w hw
    refine ⟨h0, h1, h2, h3, ?_⟩
    rw [decodeFields_of_nonneg hw]
    simp [Int.fdiv_eq_ediv_of_nonneg, Int.fmod_eq_emod_of_nonneg]

/-- Settles O1: the fields evaluate; 2 and 99 are opcodes, of which 99 consults no digit, and 11 is none. -/
theorem workedWordsDecode : Obligations.WorkedWordsDecode := by
  have hmul : decodeFields 1002 = ⟨2, 0, 1, 0⟩ := by decide
  have hhlt : decodeFields 11199 = ⟨99, 1, 1, 1⟩ := by decide
  have hbad : decodeFields 10011 = ⟨11, 0, 0, 1⟩ := by decide
  refine ⟨hmul, hhlt, hbad, fun p0 p1 p2 rest => ?_, fun rest => ?_, raisesInvalidOpcode_of_no_opcode fun o => ?_⟩
  · rw [decode_cons_eq_ok_iff, hmul]
    exact ⟨rfl, rfl, fun _ => rfl, fun _ => rfl⟩
  · rw [decode_cons_eq_ok_iff, hhlt]
    exact ⟨rfl, rfl, fun h => absurd h (Nat.not_succ_le_zero 0), fun h => absurd h (Nat.not_succ_le_zero 1)⟩
  · rw [hbad]
    cases o <;> decide

/-! ### The step -/

/-- Settles O30: the chosen engine may step, so it is RUNNING, and its step is what its fetch gives. -/
theorem stepRunsDecoded : Obligations.StepRunsDecoded := by
  intro s i e hpick he
  obtain ⟨f, hf, hr, -⟩ := (s.enabled_iff i).1 ((s.mem_enabledEngines i).1 (State.pick?_mem hpick))
  obtain rfl : e = f := Option.some.inj (he.symm.trans hf)
  have hstep : step s = s.chosen.stepAs i := by simp only [step, State.systemStep, hpick]
  have hchosen : s.chosen.engine? i = some e := he
  rw [hstep, State.stepAs_of_running hchosen hr]
  refine ⟨fun j rest hdec => ?_, fun r hdec => ?_⟩
  · rw [Engine.fetch_of_decode_ok hdec]
    rfl
  · rw [Engine.fetch_of_decode_error hdec]
    rfl

/-! ### Nothing is refused -/

/-- Only a missing input link leaves a read without an answer (log 9). -/
theorem Engine.chanRead_noLink {e : Engine} {ls : List Link} (h : e.chanRead ls = .noLink) :
    ∃ k, e.source = .link k ∧ ls[k]? = none := by
  cases hp : e.phasePending with
  | true => cases hphase : e.phase <;> simp_all [Engine.phasePending, Engine.chanRead]
  | false =>
    cases hs : e.source with
    | buffer =>
      rw [Engine.chanRead_of_buffer ls hp hs, Engine.bufferRead] at h
      split at h <;> cases h
    | link k =>
      rw [Engine.chanRead_of_link ls hp hs, Engine.linkRead] at h
      cases hl : ls[k]? with
      | none => exact ⟨k, rfl, hl⟩
      | some l =>
        simp only [hl] at h
        split at h
        · cases h
        · split at h <;> cases h

/-- Only a missing output link leaves a write without an answer (log 9). -/
theorem Engine.chanWrite_eq_none {e : Engine} {ls : List Link} {v : Word} (h : e.chanWrite ls v = none) :
    ∃ k, e.sink = .link k ∧ ls[k]? = none := by
  unfold Engine.chanWrite at h
  cases hs : e.sink with
  | buffer => simp [hs] at h
  | link k =>
    cases hl : ls[k]? with
    | none => exact ⟨k, rfl, hl⟩
    | some l => simp [hs, hl] at h

/-- An engine whose links exist is never refused. -/
theorem Engine.act_ne_none {e : Engine} {ls : List Link} (i : Instr) (hsource : ∀ k, e.source = .link k → k < ls.length)
    (hsink : ∀ k, e.sink = .link k → k < ls.length) : e.act i ls ≠ none := by
  have hmissing {k : Nat} (hk : k < ls.length) : ls[k]? ≠ none := by simpa using hk
  cases i with
  | input dst =>
    simp only [Engine.act, Engine.actInput]
    split
    · cases hc : e.chanRead ls with
      | noLink =>
        obtain ⟨k, hk, hnone⟩ := Engine.chanRead_noLink hc
        exact absurd hnone (hmissing (hsource k hk))
      | _ => simp
    · simp
  | output a =>
    simp only [Engine.act, Engine.actOutput]
    cases e.val? a with
    | none => simp
    | some v =>
      intro h
      obtain ⟨k, hk, hnone⟩ := Engine.chanWrite_eq_none (Option.map_eq_none_iff.1 h)
      exact hmissing (hsink k hk) hnone
  | _ => simp [Engine.act]

theorem Engine.stepped_ne_none {e : Engine} {ls : List Link} (hsource : ∀ k, e.source = .link k → k < ls.length)
    (hsink : ∀ k, e.sink = .link k → k < ls.length) : e.stepped ls ≠ none := by
  unfold Engine.stepped
  cases e.fetch with
  | error k => simp
  | ok i => exact Engine.act_ne_none i hsource hsink

/-- Settles O36: the wiring part of the invariant gives the engine its links, and a missing link is all that could be refused. -/
theorem enabledEngineSteps : Obligations.EnabledEngineSteps := by
  intro s i hinv hen
  obtain ⟨e, he, hr, -⟩ := (s.enabled_iff i).1 hen
  obtain ⟨⟨e', ls'⟩, hst⟩ := Option.ne_none_iff_exists'.1 (e.stepped_ne_none
    (fun k => hinv.wired.sourceLink i e k he) (fun k => hinv.wired.sinkLink i e k he))
  exact ⟨_, by rw [State.stepAs_answer he hr, hst]; rfl⟩

end Sys2Proof.Machine
end

section
/-! SUPPORT. The statements of spec/40_arithmetic.md: ADD (R100) and MUL (R101), and what the three-operand instructions share. -/

namespace Sys2Proof.Machine

/-! ### What an operation inside one engine answers -/

theorem State.onEngine_of_ok {s : State} {e e' : Engine} {f : Engine → Except FaultKind Engine} (he : s.acting? = some e)
    (hf : f e = .ok e') : s.onEngine f = .next (s.putEngine e') := by
  simp only [State.onEngine, he, hf]

theorem State.onEngine_of_error {s : State} {e : Engine} {f : Engine → Except FaultKind Engine} {k : FaultKind}
    (he : s.acting? = some e) (hf : f e = .error k) : s.onEngine f = .next (s.raise e k) := by
  simp only [State.onEngine, he, hf]

/-! ### The three-operand shape (R100, R101, R150, R151) -/

theorem Engine.threeOperand_of_inBounds {e : Engine} {f : Word → Word → Word} {a b : Src} {dst x y : Word}
    (ha : e.val? a = some x) (hb : e.val? b = some y) (hd : e.mem.inBounds dst = true) :
    Engine.threeOperand f a b dst e
      = .ok { e with mem := e.mem.poke dst.toInt.toNat (f x y), ip := wrap (e.ip.toInt + 4) } := by
  have hw : e.mem.write? dst (f x y) = some (e.mem.poke dst.toInt.toNat (f x y)) := (Memory.write?_eq_some ..).2 ⟨hd, rfl⟩
  simp only [Engine.threeOperand, ha, hb, hw]
  rfl

/-- If it does not fault, it has read both sources and found the destination in bounds. -/
theorem Engine.threeOperand_of_outOfBounds {e : Engine} {a b : Src} {dst : Word} (f : Word → Word → Word)
    (h : e.val? a = none ∨ e.val? b = none ∨ e.mem.inBounds dst = false) :
    Engine.threeOperand f a b dst e = .error .outOfBounds := by
  obtain hfault | ⟨x, y, hx, hy, hd, -⟩ := Engine.threeOperand_cases f a b dst e
  · exact hfault
  · simp [hx, hy, hd] at h

/-- An instruction that encodes with three operands, decodes in format F3 and runs `f` in the three-operand shape does what the
rule says. -/
theorem threeOperandRule_of_shape {mk : Src → Src → Word → Instr} {o : Opcode} {f : Word → Word → Word}
    (hencode : ∀ a b dst, encode (mk a b dst) = [canonicalWord o a.digit b.digit, a.word, b.word, dst])
    (hdecode : ∀ fs ps, decodeOperands o fs ps = decodeF3 mk fs ps)
    (hexec : ∀ a b dst s, exec (mk a b dst) s = s.onEngine (Engine.threeOperand f a b dst)) :
    ThreeOperandRule mk o.code f := by
  refine ⟨hencode, ?decodes, fun s e a b dst he => ⟨?completes, ?faults⟩⟩
  case decodes =>
    intro w a b dst rest ho ha hb
    rw [decode_of_opcode ho, hdecode]
    exact decodeF3_eq_ok_iff.2 ⟨a, b, dst, ha, hb, rfl, rfl⟩
  case completes =>
    intro x y hx hy hd
    rw [hexec]
    exact State.onEngine_of_ok he (Engine.threeOperand_of_inBounds hx hy hd)
  case faults =>
    intro h
    rw [hexec]
    exact State.onEngine_of_error he (Engine.threeOperand_of_outOfBounds f h)

/-! ### ADD and MUL -/

/-- Settles O11: ADD is the three-operand shape with `addWord`. -/
theorem addWritesWrappedSum : Obligations.AddWritesWrappedSum :=
  threeOperandRule_of_shape (o := .add) (f := addWord) (fun _ _ _ => rfl) (fun _ _ => rfl) fun _ _ _ _ => rfl

/-- Settles O12: MUL is the three-operand shape with `mulWord`. -/
theorem mulWritesWrappedProduct : Obligations.MulWritesWrappedProduct :=
  threeOperandRule_of_shape (o := .mul) (f := mulWord) (fun _ _ _ => rfl) (fun _ _ => rfl) fun _ _ _ _ => rfl

end Sys2Proof.Machine
end

section
/-! SUPPORT. The statements of spec/41_io_and_channels.md: what IN reads, where it faults and where it stalls (R110, R112 to R115), what
OUT emits (R111, R116 to R118), what IN, OUT and HLT leave unchanged (R121, R124), the order of the input stream (R125), when an engine
may step (R115, R191), and that tracing has no effect (R124, R197). -/

namespace Sys2Proof.Machine

/-! ### What IN answers, by what its input stream answers -/

theorem exec_input_of_outOfBounds {s : State} {e : Engine} {dst : Word} (he : s.acting? = some e)
    (hd : e.mem.inBounds dst = false) : exec (.input dst) s = .next (s.raise e .outOfBounds) := by
  simp only [exec, execInput, he, hd, Bool.false_eq_true, if_false]

theorem exec_input_of_stall {s : State} {e : Engine} {dst : Word} (he : s.acting? = some e) (hd : e.mem.inBounds dst = true)
    (hc : e.chanRead s.links = .stall) : exec (.input dst) s = .next s := by
  simp only [exec, execInput, he, hd, if_true, hc]

/-- Settles O17: the destination is checked before the input stream is looked at. -/
theorem inputBadDestinationFaults : Obligations.InputBadDestinationFaults :=
  fun _ _ _ he hd => exec_input_of_outOfBounds he hd

/-! ### What the input stream answers, by its realisation -/

/-- A pending phase is delivered before any channel is looked at (R112). -/
theorem Engine.chanRead_of_pending {e : Engine} {v : Word} (ls : List Link) (hp : e.phase = .pending v) :
    e.chanRead ls = .word v { e with phase := .consumed v } ls := by
  simp only [Engine.chanRead, hp]

theorem Engine.bufferRead_of_getElem? {e : Engine} {v : Word} (ls : List Link) (hv : e.ibuf[e.ipos]? = some v) :
    e.bufferRead ls = .word v { e with ipos := e.ipos + 1 } ls := by
  simp only [Engine.bufferRead, hv]

theorem Engine.bufferRead_of_length_le {e : Engine} (ls : List Link) (h : e.ibuf.length ≤ e.ipos) :
    e.bufferRead ls = .fault .inputExhausted := by
  simp only [Engine.bufferRead, List.getElem?_eq_none h]

theorem Engine.linkRead_of_cons {ls : List Link} {k : Nat} {l : Link} {v : Word} {rest : List Word} (e : Engine)
    (hl : ls[k]? = some l) (hq : l.q = v :: rest) : e.linkRead ls k = .word v e (ls.set k { l with q := rest }) := by
  simp only [Engine.linkRead, hl, hq]

theorem Engine.linkRead_of_closed {ls : List Link} {k : Nat} {l : Link} (e : Engine) (hl : ls[k]? = some l) (hq : l.q = [])
    (hc : l.closed = true) : e.linkRead ls k = .fault .channelClosed := by
  simp only [Engine.linkRead, hl, hq, hc, if_true]

theorem Engine.linkRead_of_open {ls : List Link} {k : Nat} {l : Link} (e : Engine) (hl : ls[k]? = some l) (hq : l.q = [])
    (hc : l.closed = false) : e.linkRead ls k = .stall := by
  simp only [Engine.linkRead, hl, hq, hc, Bool.false_eq_true, if_false]

/-- Settles O18: the stream delivers the pending phase, and IN stores what is delivered. -/
theorem inputTakesPhase : Obligations.InputTakesPhase :=
  fun s _ _ _ he hd hp => exec_input_of_word he hd (Engine.chanRead_of_pending s.links hp)

/-- Settles O19: with no phase pending the stream is the buffer. -/
theorem inputReadsBuffer : Obligations.InputReadsBuffer := by
  intro s e dst he hd hp hs
  have hread : e.chanRead s.links = e.bufferRead s.links := Engine.chanRead_of_buffer s.links hp hs
  exact ⟨fun v hv => exec_input_of_word he hd (hread.trans (Engine.bufferRead_of_getElem? s.links hv)),
    fun hlen => exec_input_of_fault he hd (hread.trans (Engine.bufferRead_of_length_le s.links hlen))⟩

/-- Settles O20: with no phase pending the stream is the link. -/
theorem inputReadsLink : Obligations.InputReadsLink := by
  intro s e dst k l he hd hp hs hl
  have hread : e.chanRead s.links = e.linkRead s.links k := Engine.chanRead_of_link s.links hp hs
  exact ⟨fun v rest hq => exec_input_of_word he hd (hread.trans (e.linkRead_of_cons hl hq)),
    fun hq hc => exec_input_of_fault he hd (hread.trans (e.linkRead_of_closed hl hq hc)),
    fun hq hc => exec_input_of_stall he hd (hread.trans (e.linkRead_of_open hl hq hc))⟩

/-! ### What OUT answers -/

theorem exec_output_of_val?_none {s : State} {e : Engine} {a : Src} (he : s.acting? = some e) (ha : e.val? a = none) :
    exec (.output a) s = .next (s.raise e .outOfBounds) := by
  simp only [exec, execOutput, he, ha]

/-- An OUT of a readable operand emits its value and advances (R111). -/
theorem exec_output_of_chanWrite {s : State} {e e' : Engine} {a : Src} {v : Word} {ls : List Link} (he : s.acting? = some e)
    (ha : e.val? a = some v) (hw : e.chanWrite s.links v = some (e', ls)) :
    exec (.output a) s = .next (s.moved ((e'.advance 2).traced (.output v)) ls) := by
  simp only [exec, execOutput, he, ha, hw]
  rfl

theorem Engine.chanWrite_of_buffer {e : Engine} (ls : List Link) (v : Word) (hs : e.sink = .buffer) :
    e.chanWrite ls v = some ({ e with obuf := e.obuf ++ [v] }, ls) := by
  simp only [Engine.chanWrite, hs]

theorem Engine.chanWrite_of_link {e : Engine} {ls : List Link} {k : Nat} {l : Link} (v : Word) (hs : e.sink = .link k)
    (hl : ls[k]? = some l) : e.chanWrite ls v = some (e, ls.set k (l.write v)) := by
  simp only [Engine.chanWrite, hs, hl]

/-- Settles O21: OUT consults one digit, and what it answers is what reading its operand and writing its sink answer. -/
theorem outputEmitsValue : Obligations.OutputEmitsValue := by
  refine ⟨fun _ => rfl, fun w a rest hop h0 => ?_, fun s e a he => ⟨fun v ha hs => ?_, fun v k l ha hs hl => ?_, ?_⟩⟩
  · exact decode_cons_eq_ok_iff.2 ⟨hop, rfl, fun _ => h0, fun h => absurd h (by decide : ¬ 2 ≤ Opcode.output.sources)⟩
  · exact exec_output_of_chanWrite he ha (Engine.chanWrite_of_buffer s.links v hs)
  · exact exec_output_of_chanWrite he ha (Engine.chanWrite_of_link v hs hl)
  · exact exec_output_of_val?_none he

/-! ### What IN, OUT and HLT leave unchanged -/

/-- A link after one link is replaced: the same as before, or it is the replaced one. -/
theorem getElem?_set_link {ls : List Link} {j k : Nat} {m m' l l' : Link} (hm : ls[k]? = some m) (hl : ls[j]? = some l)
    (hl' : (ls.set k m')[j]? = some l') : l' = l ∨ (l = m ∧ l' = m') := by
  obtain rfl | hkj := eq_or_ne k j
  · rw [List.getElem?_set_self (List.getElem?_eq_some_iff.1 hm).1] at hl'
    exact .inr ⟨Option.some.inj (hl.symm.trans hm), (Option.some.inj hl').symm⟩
  · rw [List.getElem?_set_ne hkj, hl] at hl'
    exact .inl (Option.some.inj hl').symm

/-- Everything IN can answer: one of three faults, a stall, or a word delivered and stored. -/
theorem exec_input_next {s t : State} {e : Engine} {dst : Word} (he : s.acting? = some e) (h : exec (.input dst) s = .next t) :
    (∃ k, (k = .outOfBounds ∨ k = .inputExhausted ∨ k = .channelClosed) ∧ t = s.raise e k) ∨ t = s ∨
    ∃ v e' ls, e.mem.inBounds dst = true ∧ e.chanRead s.links = .word v e' ls ∧
      t = s.moved ((({ e' with mem := e'.mem.poke dst.toInt.toNat v } : Engine).advance 2).traced (.input v)) ls := by
  cases hd : e.mem.inBounds dst with
  | false =>
    rw [exec_input_of_outOfBounds he hd] at h
    cases h
    exact .inl ⟨_, .inl rfl, rfl⟩
  | true =>
    cases hc : e.chanRead s.links with
    | word v e' ls =>
      rw [exec_input_of_word he hd hc] at h
      cases h
      exact .inr (.inr ⟨v, e', ls, rfl, rfl, rfl⟩)
    | stall =>
      rw [exec_input_of_stall he hd hc] at h
      cases h
      exact .inr (.inl rfl)
    | fault k =>
      rw [exec_input_of_fault he hd hc] at h
      cases h
      obtain ⟨-, ⟨-, -, hk⟩ | ⟨_, _, -, -, -, -, hk⟩⟩ := Engine.chanRead_fault hc
      · exact .inl ⟨k, .inr (.inl hk), rfl⟩
      · exact .inl ⟨k, .inr (.inr hk), rfl⟩
    | noLink => simp [exec, execInput, he, hd, hc] at h

/-- Reading the input stream changes nothing of the configuration, and of the engine's outputs. -/
theorem Engine.chanRead_word_sameConfig {e e' : Engine} {ls ls' : List Link} {v : Word}
    (h : e.chanRead ls = .word v e' ls') : e.SameConfig e' ∧ e'.obuf = e.obuf ∧ e'.trace = e.trace := by
  obtain ⟨hp, rfl, -⟩ | ⟨-, -, -, rfl, -⟩ | ⟨k, l, rest, -, -, -, -, rfl, -⟩ := Engine.chanRead_word h
  · exact ⟨⟨rfl, rfl, rfl, rfl, rfl, rfl, by simp [Engine.phaseEn, hp], by simp [Engine.phaseValue, hp]⟩, rfl, rfl⟩
  · exact ⟨.refl e, rfl, rfl⟩
  · exact ⟨.refl e', rfl, rfl⟩

/-- Reading the input stream takes a word from one place only: the phase, the buffer, or the link (R112). -/
theorem Engine.chanRead_word_consumes {e e' : Engine} {ls ls' : List Link} {v : Word} (h : e.chanRead ls = .word v e' ls') :
    (e.phasePending = true → e'.ipos = e.ipos ∧ ls' = ls) ∧ (e.phasePending = false → e'.phase = e.phase) ∧
    (e.source ≠ .buffer → e'.ipos = e.ipos) := by
  obtain ⟨hp, rfl, rfl⟩ | ⟨hp, hs, -, rfl, rfl⟩ | ⟨k, l, rest, hp, hs, -, -, rfl, rfl⟩ := Engine.chanRead_word h
  · exact ⟨fun _ => ⟨rfl, rfl⟩, fun hn => by simp [Engine.phasePending, hp] at hn, fun _ => rfl⟩
  · exact ⟨fun hn => by simp [hp] at hn, fun _ => rfl, fun hn => absurd hs hn⟩
  · exact ⟨fun hn => by simp [hp] at hn, fun _ => rfl, fun _ => rfl⟩

/-- Reading the input stream changes no link but the one read, and of that only the waiting words (R114). -/
theorem Engine.chanRead_word_links {e e' : Engine} {ls ls' : List Link} {v : Word} (h : e.chanRead ls = .word v e' ls') :
    ls'.length = ls.length ∧ (∀ k, e.source ≠ .link k → ls'[k]? = ls[k]?) ∧
    ∀ (k : Nat) (l l' : Link), ls[k]? = some l → ls'[k]? = some l' →
      l'.closed = l.closed ∧ l'.last = l.last ∧ l'.wcount = l.wcount := by
  have hcase : ls' = ls ∨ ∃ k l rest, e.source = .link k ∧ ls[k]? = some l ∧ ls' = ls.set k { l with q := rest } := by
    obtain ⟨-, -, rfl⟩ | ⟨-, -, -, -, rfl⟩ | ⟨k, l, rest, -, hs, hl, -, -, rfl⟩ := Engine.chanRead_word h
    · exact .inl rfl
    · exact .inl rfl
    · exact .inr ⟨k, l, rest, hs, hl, rfl⟩
  obtain rfl | ⟨k, m, rest, hs, hm, rfl⟩ := hcase
  · refine ⟨rfl, fun _ _ => rfl, fun k l l' hl hl' => ?_⟩
    obtain rfl : l = l' := Option.some.inj (hl.symm.trans hl')
    exact ⟨rfl, rfl, rfl⟩
  · refine ⟨List.length_set, fun j hj => List.getElem?_set_ne (by rintro rfl; exact hj hs), fun j l l' hl hl' => ?_⟩
    obtain rfl | ⟨rfl, rfl⟩ := getElem?_set_link hm hl hl' <;> exact ⟨rfl, rfl, rfl⟩

/-- Settles O27: beside its store and its advance IN changes what reading the stream changes. -/
theorem inputFrame : Obligations.InputFrame := by
  intro s t e dst he h
  obtain hfault | hstall | ⟨v, e', ls, hd, hc, rfl⟩ := exec_input_next he h
  · exact .inl hfault
  · exact .inr (.inl hstall)
  obtain ⟨hmem, hrun⟩ := Engine.chanRead_word_mem_run hc
  obtain ⟨⟨-, hvmid, hsource, hsink, hdebug, hibuf, -, hphase⟩, hobuf, htrace⟩ := Engine.chanRead_word_sameConfig hc
  obtain ⟨hlen, hother, hkept⟩ := Engine.chanRead_word_links hc
  obtain ⟨hpending, hchannel, hipos⟩ := Engine.chanRead_word_consumes hc
  refine .inr (.inr ⟨s.sameElsewhere_moved _ _, hlen, hother, hkept, _, State.engine?_cur_moved he _ _,
    congrArg (·.size) hmem, fun x hx => ?_, hrun, hvmid, hsource, hsink, hibuf, hobuf, hdebug, hphase, fun hoff => ?_,
    hpending, hchannel, hipos⟩)
  · simp only [Engine.traced_mem, Engine.advance_mem, hmem]
    exact e.mem.read?_poke_ne v hd hx
  · simp [hdebug, hoff, htrace]

/-- Everything OUT can answer: a fault, or the value of its operand emitted. -/
theorem exec_output_next {s t : State} {e : Engine} {a : Src} (he : s.acting? = some e) (h : exec (.output a) s = .next t) :
    t = s.raise e .outOfBounds ∨ ∃ v e' ls, e.chanWrite s.links v = some (e', ls) ∧
      t = s.moved ((e'.advance 2).traced (.output v)) ls := by
  cases ha : e.val? a with
  | none =>
    rw [exec_output_of_val?_none he ha] at h
    cases h
    exact .inl rfl
  | some v =>
    cases hw : e.chanWrite s.links v with
    | none => simp [exec, execOutput, he, ha, hw] at h
    | some p =>
      rw [exec_output_of_chanWrite he ha hw] at h
      cases h
      exact .inr ⟨v, _, _, hw, rfl⟩

/-- Emitting a word changes no link but the one written, and never whether it is closed (R118). -/
theorem Engine.chanWrite_links {e e' : Engine} {ls ls' : List Link} {v : Word} (h : e.chanWrite ls v = some (e', ls')) :
    ls'.length = ls.length ∧ (∀ k, e.sink ≠ .link k → ls'[k]? = ls[k]?) ∧
    ∀ (k : Nat) (l l' : Link), ls[k]? = some l → ls'[k]? = some l' → l'.closed = l.closed := by
  obtain ⟨-, -, rfl⟩ | ⟨k, m, hs, hm, -, rfl⟩ := Engine.chanWrite_some h
  · refine ⟨rfl, fun _ _ => rfl, fun k l l' hl hl' => ?_⟩
    obtain rfl : l = l' := Option.some.inj (hl.symm.trans hl')
    rfl
  · refine ⟨List.length_set, fun j hj => List.getElem?_set_ne (by rintro rfl; exact hj hs), fun j l l' hl hl' => ?_⟩
    obtain rfl | ⟨rfl, rfl⟩ := getElem?_set_link hm hl hl' <;> rfl

/-- Settles O28: OUT appends to the output buffer or writes the output link, and the rest is its advance. -/
theorem outputFrame : Obligations.OutputFrame := by
  intro s t e a he h
  obtain hfault | ⟨v, e', ls, hw, rfl⟩ := exec_output_next he h
  · exact .inl hfault
  obtain ⟨hlen, hother, hclosed⟩ := Engine.chanWrite_links hw
  refine .inr ⟨s.sameElsewhere_moved _ _, hlen, hother, hclosed, _, State.engine?_cur_moved he _ _, ?_⟩
  obtain ⟨hs, rfl, -⟩ | ⟨k, m, -, -, rfl, -⟩ := Engine.chanWrite_some hw
  · exact ⟨rfl, rfl, rfl, rfl, rfl, rfl, rfl, rfl, rfl, fun hoff => by simp [hoff], fun hn => absurd hs hn⟩
  · exact ⟨rfl, rfl, rfl, rfl, rfl, rfl, rfl, rfl, rfl, fun hoff => by simp [hoff], fun _ => rfl⟩

/-- Closing the output link discards no word (R121). -/
theorem closedLinks_keeps_words {ls : List Link} {d : Sink} {k : Nat} {l l' : Link} (hl : ls[k]? = some l)
    (hl' : (closedLinks ls d)[k]? = some l') : l'.q = l.q ∧ l'.last = l.last ∧ l'.wcount = l.wcount := by
  rw [closedLinks_get, hl] at hl'
  split at hl' <;> cases hl' <;> exact ⟨rfl, rfl, rfl⟩

/-- Settles O29: HLT is the entry into the terminal state HALTED, which closes the output link. -/
theorem hltFrame : Obligations.HltFrame := by
  intro s t e he h
  obtain rfl : s.moved { e with run := .halted } (closedLinks s.links e.sink) = t := by
    simpa [exec, execHlt, he, State.terminate_eq_moved] using h
  exact ⟨s.sameElsewhere_moved _ _, closedLinks_length s.links e.sink,
    fun k hk => (closedLinks_get k s.links e.sink).trans (if_neg hk), fun _ _ _ hl hl' => closedLinks_keeps_words hl hl',
    _, State.engine?_cur_moved he _ _, rfl, rfl, rfl, rfl, rfl, rfl, rfl, rfl, rfl, rfl, rfl, rfl⟩

/-! ### When an engine may step -/

/-- An engine stalls exactly at an IN with a good destination, no phase pending, and an empty open link (R114, R115). -/
theorem Engine.stalls_iff_link {e : Engine} {ls : List Link} : e.stalls ls = true ↔
    ∃ dst k l, e.fetch = .ok (.input dst) ∧ e.mem.inBounds dst = true ∧ e.phasePending = false ∧ e.source = .link k ∧
      ls[k]? = some l ∧ l.q = [] ∧ l.closed = false := by
  simp only [Engine.stalls_iff, Engine.chanRead_stall_iff]
  constructor
  · rintro ⟨dst, hf, hd, hp, k, l, hlink⟩
    exact ⟨dst, k, l, hf, hd, hp, hlink⟩
  · rintro ⟨dst, k, l, hf, hd, hp, hlink⟩
    exact ⟨dst, hf, hd, hp, k, l, hlink⟩

/-- Settles O33: an engine that exists and is RUNNING may step unless it stalls. -/
theorem enabledExactly : Obligations.EnabledExactly := by
  intro s i
  rw [State.enabled_iff]
  refine exists_congr fun e => and_congr_right fun _ => and_congr_right fun _ => ?_
  exact Bool.eq_false_iff.trans (not_congr Engine.stalls_iff_link)

/-! ### The order of the input stream -/

/-- The word that a read delivers is the first of the stream, and the stream after the read is the rest (R125). -/
theorem Engine.stream_of_chanRead_word {e e' : Engine} {ls ls' : List Link} {v : Word} (h : e.chanRead ls = .word v e' ls') :
    e.stream ls = v :: e'.stream ls' := by
  obtain ⟨hp, rfl, rfl⟩ | ⟨hp, hs, hv, rfl, rfl⟩ | ⟨k, l, rest, hp, hs, hl, hq, rfl, rfl⟩ := Engine.chanRead_word h
  · simp only [Engine.stream, hp]
  · obtain ⟨hlt, hget⟩ := List.getElem?_eq_some_iff.1 hv
    have hp' : ({ e with ipos := e.ipos + 1 } : Engine).phasePending = false := hp
    rw [Engine.stream_of_buffer _ hp hs, Engine.stream_of_buffer _ hp' hs, List.drop_eq_getElem_cons hlt, hget]
  · have hlt : k < ls.length := (List.getElem?_eq_some_iff.1 hl).1
    rw [Engine.stream_of_link _ hp hs, Engine.stream_of_link _ hp hs, List.getElem?_set_self hlt, hl]
    exact hq

/-- Settles O51: the first word of the stream is the one that IN stores, and a store does not touch the stream. -/
theorem inputReceivesStreamInOrder : Obligations.InputReceivesStreamInOrder := by
  intro s e dst v rest he hd h
  obtain ⟨e', ls, hc⟩ := Engine.chanRead_of_stream h
  obtain ⟨hmem, -⟩ := Engine.chanRead_word_mem_run hc
  have hrest : e'.stream ls = rest := by simpa [Engine.stream_of_chanRead_word hc] using h
  exact ⟨_, _, exec_input_of_word he hd hc, State.engine?_cur_moved he _ _, Memory.read?_poke_same v (hmem ▸ hd), hrest⟩

/-! ### Tracing has no effect -/

/-- The engine with `DEBUG` off and no trace (R197). -/
def Engine.untraced (e : Engine) : Engine := { e with debug := false, trace := [] }

/-- An engine and its links, with the engine untraced. -/
def Engine.untracedPair (p : Engine × List Link) : Engine × List Link := (p.1.untraced, p.2)

theorem State.untraced_engine? {s : State} {i : Nat} {e : Engine} (he : s.engine? i = some e) :
    s.untraced.engine? i = some e.untraced := by
  have he : s.engines[i]? = some e := he
  simp only [State.untraced, State.engine?_mk, List.getElem?_map, he]
  rfl

theorem State.untraced_moved (s : State) (e' : Engine) (ls' : List Link) :
    (s.moved e' ls').untraced = s.untraced.moved e'.untraced ls' := by
  simp only [State.untraced, State.moved, State.putEngine, List.map_set]
  rfl

@[simp] theorem Engine.untraced_mem (e : Engine) : e.untraced.mem = e.mem := rfl
@[simp] theorem Engine.untraced_sink (e : Engine) : e.untraced.sink = e.sink := rfl
@[simp] theorem Engine.untraced_ibuf (e : Engine) : e.untraced.ibuf = e.ibuf := rfl
@[simp] theorem Engine.untraced_ipos (e : Engine) : e.untraced.ipos = e.ipos := rfl
@[simp] theorem Engine.untraced_fetch (e : Engine) : e.untraced.fetch = e.fetch := rfl
@[simp] theorem Engine.untraced_val? (e : Engine) (a : Src) : e.untraced.val? a = e.val? a := rfl

theorem Engine.threeOperand_untraced (f : Word → Word → Word) (a b : Src) (dst : Word) (e : Engine) :
    Engine.threeOperand f a b dst e.untraced = (Engine.threeOperand f a b dst e).map Engine.untraced := by
  unfold Engine.threeOperand
  simp only [Engine.untraced_val?, Engine.untraced_mem]
  cases e.val? a with
  | none => rfl
  | some x =>
    cases e.val? b with
    | none => rfl
    | some y => cases hw : e.mem.write? dst (f x y) <;> simp only [hw] <;> rfl

theorem Engine.jumpIf_untraced (cond : Word → Bool) (a t : Src) (e : Engine) :
    Engine.jumpIf cond a t e.untraced = (Engine.jumpIf cond a t e).map Engine.untraced := by
  unfold Engine.jumpIf
  simp only [Engine.untraced_val?]
  cases e.val? a with
  | none => rfl
  | some x =>
    cases hc : cond x with
    | false =>
      simp only [hc]
      rfl
    | true => cases e.val? t <;> simp only [hc] <;> rfl

theorem Engine.actAlone_untraced {f : Engine → Except FaultKind Engine} {e : Engine} (ls : List Link)
    (hf : f e.untraced = (f e).map Engine.untraced) : e.untraced.actAlone f ls = Engine.untracedPair (e.actAlone f ls) := by
  unfold Engine.actAlone
  rw [hf]
  cases f e <;> rfl

/-- The answer of a read, with the engine untraced. -/
def Read.untraced : Read → Read
  | .word v e ls => .word v e.untraced ls
  | .stall => .stall
  | .fault k => .fault k
  | .noLink => .noLink

theorem Engine.bufferRead_untraced (e : Engine) (ls : List Link) : e.untraced.bufferRead ls = (e.bufferRead ls).untraced := by
  unfold Engine.bufferRead
  simp only [Engine.untraced_ibuf, Engine.untraced_ipos]
  cases e.ibuf[e.ipos]? <;> rfl

theorem Engine.linkRead_untraced (e : Engine) (ls : List Link) (k : Nat) :
    e.untraced.linkRead ls k = (e.linkRead ls k).untraced := by
  unfold Engine.linkRead
  cases ls[k]? with
  | none => rfl
  | some l =>
    cases hq : l.q with
    | cons v rest => simp only [hq]; rfl
    | nil => cases hc : l.closed <;> simp only [hq, hc] <;> rfl

theorem Engine.chanRead_untraced (e : Engine) (ls : List Link) : e.untraced.chanRead ls = (e.chanRead ls).untraced := by
  cases hp : e.phasePending with
  | true =>
    cases hphase : e.phase with
    | pending v => rw [Engine.chanRead_of_pending ls hphase, Engine.chanRead_of_pending (e := e.untraced) ls hphase]; rfl
    | off | consumed => simp [Engine.phasePending, hphase] at hp
  | false =>
    cases hs : e.source with
    | buffer =>
      rw [Engine.chanRead_of_buffer ls hp hs, Engine.chanRead_of_buffer (e := e.untraced) ls hp hs, Engine.bufferRead_untraced]
    | link k =>
      rw [Engine.chanRead_of_link ls hp hs, Engine.chanRead_of_link (e := e.untraced) ls hp hs, Engine.linkRead_untraced]

theorem Engine.chanWrite_untraced (e : Engine) (ls : List Link) (v : Word) :
    e.untraced.chanWrite ls v = (e.chanWrite ls v).map Engine.untracedPair := by
  unfold Engine.chanWrite
  simp only [Engine.untraced_sink]
  cases e.sink with
  | buffer => rfl
  | link k => cases hl : ls[k]? <;> simp only [hl] <;> rfl

/-- Tracing off and the trace dropped afterwards, or before: the event of the IN is in neither. -/
theorem Engine.actInput_untraced (dst : Word) (e : Engine) (ls : List Link) :
    e.untraced.actInput dst ls = (e.actInput dst ls).map Engine.untracedPair := by
  simp only [Engine.actInput, Engine.untraced_mem, Engine.chanRead_untraced]
  cases e.mem.inBounds dst with
  | false => rfl
  | true => cases e.chanRead ls <;> rfl

theorem Engine.actOutput_untraced (a : Src) (e : Engine) (ls : List Link) :
    e.untraced.actOutput a ls = (e.actOutput a ls).map Engine.untracedPair := by
  simp only [Engine.actOutput, Engine.untraced_val?, Engine.chanWrite_untraced]
  cases e.val? a with
  | none => rfl
  | some v => cases hw : e.chanWrite ls v <;> simp only [hw] <;> rfl

/-- An instruction does the same to an untraced engine. -/
theorem Engine.act_untraced (i : Instr) (e : Engine) (ls : List Link) :
    e.untraced.act i ls = (e.act i ls).map Engine.untracedPair := by
  cases i with
  | add a b dst | mul a b dst | lt a b dst | eq a b dst =>
    exact congrArg some (Engine.actAlone_untraced ls (Engine.threeOperand_untraced _ a b dst e))
  | jnz a t | jz a t => exact congrArg some (Engine.actAlone_untraced ls (Engine.jumpIf_untraced _ a t e))
  | input dst => exact Engine.actInput_untraced dst e ls
  | output a => exact Engine.actOutput_untraced a e ls
  | hlt => rfl

theorem Engine.stepped_untraced (e : Engine) (ls : List Link) :
    e.untraced.stepped ls = (e.stepped ls).map Engine.untracedPair := by
  unfold Engine.stepped
  rw [Engine.untraced_fetch]
  cases e.fetch with
  | error k => rfl
  | ok i => exact Engine.act_untraced i e ls

/-- Settles O52: a step is a function of its engine and the links, and that function does not see the trace. -/
theorem debugHasNoEffect : Obligations.DebugHasNoEffect := by
  intro s t i h
  obtain ⟨e, e', ls', he, hr, hs, rfl⟩ := State.stepAs_eq_next h
  have hstep : e.untraced.stepped s.links = some (e'.untraced, ls') := by
    rw [Engine.stepped_untraced, hs]
    rfl
  rw [State.stepAs_answer (State.untraced_engine? he) hr, State.untraced_moved]
  exact congrArg (({ s.untraced with cur := i } : State).answer) hstep

end Sys2Proof.Machine
end

section
/-! SUPPORT. The statements of spec/42_jumps.md: JNZ (R140) and JZ (R141), what they leave unchanged, and the only ways `IP`
changes (R142). -/

namespace Sys2Proof.Machine

/-! ### The jump shape (R140, R141) -/

theorem Engine.jumpIf_of_taken {e : Engine} {cond : Word → Bool} {a t : Src} {x y : Word} (ha : e.val? a = some x)
    (hc : cond x = true) (ht : e.val? t = some y) : Engine.jumpIf cond a t e = .ok { e with ip := y } := by
  simp only [Engine.jumpIf, ha, hc, if_true, ht]

/-- A jump that is not taken does not look at its target. -/
theorem Engine.jumpIf_of_not_taken {e : Engine} {cond : Word → Bool} {a : Src} {x : Word} (t : Src) (ha : e.val? a = some x)
    (hc : cond x = false) : Engine.jumpIf cond a t e = .ok (e.advance 3) := by
  simp only [Engine.jumpIf, ha, hc, Bool.false_eq_true, if_false]

theorem Engine.jumpIf_of_target_none {e : Engine} {cond : Word → Bool} {a t : Src} {x : Word} (ha : e.val? a = some x)
    (hc : cond x = true) (ht : e.val? t = none) : Engine.jumpIf cond a t e = .error .outOfBounds := by
  simp only [Engine.jumpIf, ha, hc, if_true, ht]

theorem Engine.jumpIf_of_source_none {e : Engine} {a : Src} (cond : Word → Bool) (t : Src) (ha : e.val? a = none) :
    Engine.jumpIf cond a t e = .error .outOfBounds := by
  simp only [Engine.jumpIf, ha]

/-- An instruction that encodes with two source operands, decodes in format F2J and runs the jump shape on the condition `cond` does
what the rule says of the proposition `P` that `cond` decides. -/
theorem jumpRule_of_shape {mk : Src → Src → Instr} {o : Opcode} {cond : Word → Bool} {P : Word → Prop}
    (hencode : ∀ a t, encode (mk a t) = [canonicalWord o a.digit t.digit, a.word, t.word])
    (hdecode : ∀ fs ps, decodeOperands o fs ps = decodeF2J mk fs ps)
    (hexec : ∀ a t s, exec (mk a t) s = s.onEngine (Engine.jumpIf cond a t)) (hcond : ∀ x, cond x = true ↔ P x) :
    JumpRule mk o.code P := by
  refine ⟨hencode, ?decodes, fun s e a t he => ⟨?taken, ?falls, ?badTarget, ?badSource⟩⟩
  case decodes =>
    intro w a t rest ho ha ht
    rw [decode_of_opcode ho, hdecode]
    exact decodeF2J_eq_ok_iff.2 ⟨a, t, ha, ht, rfl, rfl⟩
  case taken =>
    intro x y hx hP hy
    rw [hexec]
    exact State.onEngine_of_ok he (Engine.jumpIf_of_taken hx ((hcond x).2 hP) hy)
  case falls =>
    intro x hx hP
    rw [hexec]
    exact State.onEngine_of_ok he (Engine.jumpIf_of_not_taken t hx (Bool.eq_false_iff.2 (mt (hcond x).1 hP)))
  case badTarget =>
    intro x hx hP ht
    rw [hexec]
    exact State.onEngine_of_error he (Engine.jumpIf_of_target_none hx ((hcond x).2 hP) ht)
  case badSource =>
    intro hx
    rw [hexec]
    exact State.onEngine_of_error he (Engine.jumpIf_of_source_none cond t hx)

/-! ### JNZ and JZ -/

theorem isZero_iff (x : Word) : isZero x = true ↔ x = 0 :=
  decide_eq_true_iff.trans (BitVec.toInt_inj (y := 0))

theorem isNonzero_iff (x : Word) : isNonzero x = true ↔ x ≠ 0 :=
  decide_eq_true_iff.trans (not_congr (BitVec.toInt_inj (y := 0)))

/-- Settles O15: JNZ is the jump shape on a word that is not 0. -/
theorem jnzJumpsWhenNotZero : Obligations.JnzJumpsWhenNotZero :=
  jumpRule_of_shape (o := .jnz) (fun _ _ => rfl) (fun _ _ => rfl) (fun _ _ _ => rfl) isNonzero_iff

/-- Settles O16: JZ is the jump shape on the word 0. -/
theorem jzJumpsWhenZero : Obligations.JzJumpsWhenZero :=
  jumpRule_of_shape (o := .jz) (fun _ _ => rfl) (fun _ _ => rfl) (fun _ _ _ => rfl) isZero_iff

/-! ### What JNZ and JZ leave unchanged -/

/-- Everything a jump can answer: a fault, its target loaded into `IP`, or the advance to the next instruction. -/
theorem State.onEngine_jumpIf_next {s u : State} {e : Engine} {cond : Word → Bool} {a t : Src} (he : s.acting? = some e)
    (h : s.onEngine (Engine.jumpIf cond a t) = .next u) :
    u = s.raise e .outOfBounds ∨ (∃ y, e.val? t = some y ∧ u = s.moved { e with ip := y } s.links) ∨
    u = s.moved (e.advance 3) s.links := by
  rw [State.onEngine_answer _ he, Engine.actAlone] at h
  obtain hc | ⟨x, y, -, -, hy, hc⟩ | ⟨x, -, -, hc⟩ := Engine.jumpIf_cases cond a t e
  · rw [hc] at h; cases h
    exact .inl rfl
  · rw [hc] at h; cases h
    exact .inr (.inl ⟨y, hy, rfl⟩)
  · rw [hc] at h; cases h
    exact .inr (.inr rfl)

/-- Settles O26: both jumps are one shape with two conditions, which faults or sets `IP`. -/
theorem jumpFrame : Obligations.JumpFrame := by
  intro s t e a b i he hi h
  obtain ⟨cond, hcond⟩ : ∃ cond, exec i s = s.onEngine (Engine.jumpIf cond a b) := by
    obtain rfl | rfl := hi
    · exact ⟨isNonzero, rfl⟩
    · exact ⟨isZero, rfl⟩
  have hset : t = s.raise e .outOfBounds ∨ ∃ y, t = s.moved { e with ip := y } s.links :=
    (State.onEngine_jumpIf_next he (hcond ▸ h)).imp_right fun hip => hip.elim (fun ⟨y, _, ht⟩ => ⟨y, ht⟩) fun ht => ⟨_, ht⟩
  obtain hfault | ⟨y, rfl⟩ := hset
  · exact .inl hfault
  · exact .inr ⟨s.sameElsewhere_moved _ _, rfl, _, State.engine?_cur_moved he _ _,
      ⟨rfl, rfl, rfl, rfl, rfl, rfl, rfl, rfl, rfl, rfl⟩, rfl⟩

/-! ### The only ways `IP` changes (R142) -/

/-- How an instruction that completes changes `IP`, from engine `e` to engine `f` (R142). -/
def Engine.IpMovedBy (e : Engine) (j : Instr) (f : Engine) : Prop :=
  ((j.opcode = .add ∨ j.opcode = .mul ∨ j.opcode = .lt ∨ j.opcode = .eq) ∧ f.ip = wrap (e.ip.toInt + 4)) ∨
  ((j.opcode = .input ∨ j.opcode = .output) ∧ f.ip = wrap (e.ip.toInt + 2)) ∨
  ((j.opcode = .jnz ∨ j.opcode = .jz) ∧ f.ip = wrap (e.ip.toInt + 3)) ∨
  ∃ a b, (j = .jnz a b ∨ j = .jz a b) ∧ e.val? b = some f.ip

/-- What R142 allows of an instruction that is not a stall: it has ended its engine with `IP` unchanged, or it has completed and changed
`IP` as listed. -/
def Engine.StoppedOrIpMoved (e : Engine) (j : Instr) (f : Engine) : Prop :=
  (f.run ≠ .running ∧ f.ip = e.ip) ∨ (f.run = .running ∧ e.IpMovedBy j f)

/-- A state after the acting engine has stopped, or moved its `IP` as listed. -/
def State.StoppedOrIpMoved (s : State) (e : Engine) (j : Instr) (t : State) : Prop :=
  ∃ e' ls', t = s.moved e' ls' ∧ e.StoppedOrIpMoved j e'

theorem State.stoppedOrIpMoved_raise (s : State) (e : Engine) (j : Instr) (k : FaultKind) :
    s.StoppedOrIpMoved e j (s.raise e k) :=
  ⟨_, _, rfl, .inl ⟨nofun, rfl⟩⟩

theorem Engine.chanRead_word_ip {e e' : Engine} {ls ls' : List Link} {v : Word} (h : e.chanRead ls = .word v e' ls') :
    e'.ip = e.ip := by
  obtain ⟨-, rfl, -⟩ | ⟨-, -, -, rfl, -⟩ | ⟨k, l, rest, -, -, -, -, rfl, -⟩ := Engine.chanRead_word h <;> rfl

theorem Engine.chanWrite_ip_run {e e' : Engine} {ls ls' : List Link} {v : Word} (h : e.chanWrite ls v = some (e', ls')) :
    e'.ip = e.ip ∧ e'.run = e.run := by
  obtain ⟨-, rfl, -⟩ | ⟨k, l, -, -, rfl, -⟩ := Engine.chanWrite_some h <;> exact ⟨rfl, rfl⟩

section
variable {s t : State} {e : Engine}

theorem State.onEngine_threeOperand_stoppedOrIpMoved {f : Word → Word → Word} {a b : Src} {dst : Word} {j : Instr}
    (hj : j.opcode = .add ∨ j.opcode = .mul ∨ j.opcode = .lt ∨ j.opcode = .eq) (he : s.acting? = some e)
    (h : s.onEngine (Engine.threeOperand f a b dst) = .next t) : s.StoppedOrIpMoved e j t := by
  have hr : e.run = .running := ((s.acting?_eq_some e).1 he).2
  obtain rfl | ⟨v, -, rfl⟩ := State.onEngine_threeOperand_next he h
  · exact s.stoppedOrIpMoved_raise e _ _
  · exact ⟨_, _, rfl, .inr ⟨hr, .inl ⟨hj, rfl⟩⟩⟩

theorem State.onEngine_jumpIf_stoppedOrIpMoved {cond : Word → Bool} {a b : Src} {j : Instr} (hj : j = .jnz a b ∨ j = .jz a b)
    (he : s.acting? = some e) (h : s.onEngine (Engine.jumpIf cond a b) = .next t) : s.StoppedOrIpMoved e j t := by
  have hr : e.run = .running := ((s.acting?_eq_some e).1 he).2
  obtain rfl | ⟨y, hy, rfl⟩ | rfl := State.onEngine_jumpIf_next he h
  · exact s.stoppedOrIpMoved_raise e _ _
  · exact ⟨_, _, rfl, .inr ⟨hr, .inr (.inr (.inr ⟨a, b, hj, hy⟩))⟩⟩
  · have hop : j.opcode = .jnz ∨ j.opcode = .jz := hj.imp (congrArg Instr.opcode) (congrArg Instr.opcode)
    exact ⟨_, _, rfl, .inr ⟨hr, .inr (.inr (.inl ⟨hop, rfl⟩))⟩⟩

/-- An IN that does not stall faults, or stores the word it is given and advances. -/
theorem exec_input_stoppedOrIpMoved {dst : Word} (he : s.acting? = some e)
    (hns : ¬ (e.mem.inBounds dst = true ∧ e.chanRead s.links = .stall)) (h : exec (.input dst) s = .next t) :
    s.StoppedOrIpMoved e (.input dst) t := by
  cases hd : e.mem.inBounds dst with
  | false =>
    rw [exec_input_of_outOfBounds he hd] at h
    cases h
    exact s.stoppedOrIpMoved_raise e _ _
  | true =>
    cases hc : e.chanRead s.links with
    | word v e' ls =>
      rw [exec_input_of_word he hd hc] at h
      cases h
      have hrun : e'.run = .running := (Engine.chanRead_word_mem_run hc).2.trans ((s.acting?_eq_some e).1 he).2
      have hip : wrap (e'.ip.toInt + 2) = wrap (e.ip.toInt + 2) := by rw [Engine.chanRead_word_ip hc]
      exact ⟨_, _, rfl, .inr ⟨hrun, .inr (.inl ⟨.inl rfl, hip⟩)⟩⟩
    | stall => exact absurd ⟨hd, hc⟩ hns
    | fault k =>
      rw [exec_input_of_fault he hd hc] at h
      cases h
      exact s.stoppedOrIpMoved_raise e _ _
    | noLink => simp [exec, execInput, he, hd, hc] at h

theorem exec_output_stoppedOrIpMoved {a : Src} (he : s.acting? = some e) (h : exec (.output a) s = .next t) :
    s.StoppedOrIpMoved e (.output a) t := by
  obtain rfl | ⟨v, e', ls, hw, rfl⟩ := exec_output_next he h
  · exact s.stoppedOrIpMoved_raise e _ _
  · obtain ⟨hip, hrun⟩ := Engine.chanWrite_ip_run hw
    have hip : wrap (e'.ip.toInt + 2) = wrap (e.ip.toInt + 2) := by rw [hip]
    exact ⟨_, _, rfl, .inr ⟨hrun.trans ((s.acting?_eq_some e).1 he).2, .inr (.inl ⟨.inr rfl, hip⟩)⟩⟩

theorem exec_hlt_stoppedOrIpMoved (he : s.acting? = some e) (h : exec .hlt s = .next t) : s.StoppedOrIpMoved e .hlt t := by
  rw [exec_answer .hlt he] at h
  cases h
  exact ⟨_, _, rfl, .inl ⟨nofun, rfl⟩⟩

/-- An instruction that is not a stalled IN ends its engine with `IP` unchanged, or changes `IP` as listed. -/
theorem exec_stoppedOrIpMoved {j : Instr} (he : s.acting? = some e)
    (hns : ∀ dst, j = .input dst → ¬ (e.mem.inBounds dst = true ∧ e.chanRead s.links = .stall)) (h : exec j s = .next t) :
    s.StoppedOrIpMoved e j t := by
  cases j with
  | add a b dst => exact State.onEngine_threeOperand_stoppedOrIpMoved (.inl rfl) he h
  | mul a b dst => exact State.onEngine_threeOperand_stoppedOrIpMoved (.inr (.inl rfl)) he h
  | lt a b dst => exact State.onEngine_threeOperand_stoppedOrIpMoved (.inr (.inr (.inl rfl))) he h
  | eq a b dst => exact State.onEngine_threeOperand_stoppedOrIpMoved (.inr (.inr (.inr rfl))) he h
  | jnz a b => exact State.onEngine_jumpIf_stoppedOrIpMoved (.inl rfl) he h
  | jz a b => exact State.onEngine_jumpIf_stoppedOrIpMoved (.inr rfl) he h
  | input dst => exact exec_input_stoppedOrIpMoved he (hns dst rfl) h
  | output a => exact exec_output_stoppedOrIpMoved he h
  | hlt => exact exec_hlt_stoppedOrIpMoved he h

end

/-- A stalled attempt leaves the machine as it was (R115), but for the model's own `cur` (log 4). -/
theorem State.stepAs_of_stalls {s : State} {i : Nat} {e : Engine} (he : s.engine? i = some e) (hr : e.run = .running)
    (hst : e.stalls s.links = true) : s.stepAs i = .next { s with cur := i } := by
  obtain ⟨dst, hf, hd, hc⟩ := (e.stalls_iff s.links).1 hst
  rw [State.stepAs_of_running he hr, hf]
  exact exec_input_of_stall (State.acting?_withCur he hr) hd hc

/-- A step that is not a stall ends its engine with `IP` unchanged, by HLT or a fault, or changes `IP` as its instruction's rule
says. -/
theorem State.stepAs_stopped_or_ipMoved {s t : State} {i : Nat} {e f : Engine} (he : s.engine? i = some e) (hr : e.run = .running)
    (hst : e.stalls s.links = false) (h : s.stepAs i = .next t) (hf : t.engine? i = some f) :
    (f.run ≠ .running ∧ f.ip = e.ip) ∨ (f.run = .running ∧ ∃ j, e.fetch = .ok j ∧ e.IpMovedBy j f) := by
  have ha : ({ s with cur := i } : State).acting? = some e := State.acting?_withCur he hr
  rw [State.stepAs_of_running he hr] at h
  cases hfetch : e.fetch with
  | error k =>
    rw [hfetch] at h
    cases h
    obtain rfl := Option.some.inj ((State.engine?_cur_moved ha _ _).symm.trans hf)
    exact .inl ⟨nofun, rfl⟩
  | ok j =>
    rw [hfetch] at h
    have hns : ∀ dst, j = .input dst → ¬ (e.mem.inBounds dst = true ∧ e.chanRead s.links = .stall) := by
      rintro dst rfl ⟨hd, hc⟩
      exact Bool.eq_false_iff.1 hst ((e.stalls_iff s.links).2 ⟨dst, hfetch, hd, hc⟩)
    obtain ⟨e', ls', rfl, hip⟩ := exec_stoppedOrIpMoved ha hns h
    obtain rfl : e' = f := Option.some.inj ((State.engine?_cur_moved ha _ _).symm.trans hf)
    exact hip.imp_right fun ⟨hrun, hmoved⟩ => ⟨hrun, j, rfl, hmoved⟩

/-- Settles O47: a stall leaves the engine as it was, and any other step stops it in place or moves its `IP` as listed. -/
theorem ipChangesOnlyAsListed : Obligations.IpChangesOnlyAsListed := by
  intro s t i e f h he hf
  obtain ⟨e₀, -, -, he₀, hr, -, -⟩ := State.stepAs_move h
  obtain rfl : e₀ = e := Option.some.inj (he₀.symm.trans he)
  cases hst : e₀.stalls s.links with
  | true =>
    rw [State.stepAs_of_stalls he hr hst] at h
    cases h
    obtain rfl : e₀ = f := Option.some.inj (he.symm.trans hf)
    exact ⟨fun _ => rfl, fun _ => rfl, fun _ hn => nomatch hn⟩
  | false =>
    obtain ⟨hrun, hip⟩ | ⟨hrun, hmoved⟩ := State.stepAs_stopped_or_ipMoved he hr hst h hf
    · exact ⟨fun _ => hip, fun hn => (nomatch hn), fun hrun' => absurd hrun' hrun⟩
    · exact ⟨fun hrun' => absurd hrun hrun', fun hn => (nomatch hn), fun _ _ => hmoved⟩

end Sys2Proof.Machine
end

section
/-! SUPPORT. The statements of spec/43_compare.md: LT (R150) and EQ (R151). -/

namespace Sys2Proof.Machine

/-- LT runs the three-operand shape, and what it stores is 1 or 0 by the signed comparison of the two values (R150). -/
theorem exec_lt (a b : Src) (dst : Word) (s : State) :
    exec (.lt a b dst) s = s.onEngine (Engine.threeOperand (fun x y => if x.toInt < y.toInt then 1 else 0) a b dst) :=
  congrArg (fun f => s.onEngine (Engine.threeOperand f a b dst)) (funext₂ ltWord_eq)

/-- EQ runs the three-operand shape; the model compares signed values, which agree exactly when the words do (R151). -/
theorem exec_eq (a b : Src) (dst : Word) (s : State) :
    exec (.eq a b dst) s = s.onEngine (Engine.threeOperand (fun x y => if x = y then 1 else 0) a b dst) :=
  congrArg (fun f => s.onEngine (Engine.threeOperand f a b dst)) (funext₂ eqWord_eq)

/-- Settles O13: LT is the three-operand shape with the signed comparison. -/
theorem ltWritesOneOrZero : Obligations.LtWritesOneOrZero :=
  threeOperandRule_of_shape (o := .lt) (fun _ _ _ => rfl) (fun _ _ => rfl) exec_lt

/-- Settles O14: EQ is the three-operand shape with equality of words. -/
theorem eqWritesOneOrZero : Obligations.EqWritesOneOrZero :=
  threeOperandRule_of_shape (o := .eq) (fun _ _ _ => rfl) (fun _ _ => rfl) exec_eq

end Sys2Proof.Machine
end

section
/-! SUPPORT. The statement of spec/44_halt.md: HLT (R160). -/

namespace Sys2Proof.Machine

/-- HLT on a RUNNING engine always completes: HALTED, with the link that its sink names closed (R160). -/
theorem exec_hlt {s : State} {e : Engine} (he : s.acting? = some e) :
    exec .hlt s = .next (s.moved { e with run := .halted } (closedLinks s.links e.sink)) :=
  exec_answer .hlt he

theorem closedLinks_link {ls : List Link} {k : Nat} {l : Link} (hl : ls[k]? = some l) :
    closedLinks ls (.link k) = ls.set k { l with closed := true } := by
  simp only [closedLinks, hl]

/-- Settles O22: HLT has no operand for the decoder to consult, and its sink decides what it closes. -/
theorem hltHaltsAndCloses : Obligations.HltHaltsAndCloses := by
  refine ⟨rfl, fun w rest hop => ?_, fun s e he => ⟨fun hs => ?_, fun k l hs hl => ?_⟩⟩
  · exact decode_of_opcode (o := .hlt) hop rest
  · rw [exec_hlt he, hs, closedLinks_buffer, ← State.putEngine_eq_moved]
  · rw [exec_hlt he, hs, closedLinks_link hl]
    rfl

end Sys2Proof.Machine
end

section
/-! SUPPORT. The statements of spec/60_exceptions.md: fault entry (R178) and the reserved code (R171), terminal engines (R181), a link
that is missing (log 9), which engine steps and when none does (R191, R195, R218), that the steps of two engines commute, and that the
outcome does not depend on the schedule (R193, R196). -/

namespace Sys2Proof.Machine

/-! ### Fault entry and terminal engines -/

/-- Settles O24: fault entry is a move of the acting engine into FAULTED, which closes the link that its sink names. -/
theorem faultEntryRecordsAndCloses : Obligations.FaultEntryRecordsAndCloses := by
  intro s e k he
  rw [State.raise_eq_moved]
  refine ⟨s.sameElsewhere_moved _ _, ⟨_, State.engine?_cur_moved he _ _, rfl, rfl, rfl, rfl⟩, fun j l hl => ?_,
    closedLinks_length s.links e.sink⟩
  have hl : s.links[j]? = some l := hl
  show (closedLinks s.links e.sink)[j]? = _
  rw [closedLinks_get, hl]
  split <;> rfl

theorem closedLinks_of_missing {ls : List Link} {k : Nat} (hl : ls[k]? = none) : closedLinks ls (.link k) = ls := by
  simp only [closedLinks, hl]

/-- Settles O23: reading and writing a link that is not there have no answer, and there is nothing to close. -/
theorem missingLinkIsRefused : Obligations.MissingLinkIsRefused := by
  intro s e k he hl
  have hl : s.links[k]? = none := hl
  refine ⟨fun dst hd hp hs => ?_, fun a v ha hs => ?_, fun hs => ?_⟩
  · have hread : e.chanRead s.links = .noLink := by simp only [Engine.chanRead_of_link s.links hp hs, Engine.linkRead, hl]
    simp only [exec, execInput, he, hd, if_true, hread]
  · have hwrite : e.chanWrite s.links v = none := by simp only [Engine.chanWrite, hs, hl]
    simp only [exec, execOutput, he, ha, hwrite]
  · rw [exec_hlt he, hs, closedLinks_of_missing hl, ← State.putEngine_eq_moved]

/-- Settles O42: only a RUNNING engine steps, and no other engine is touched. -/
theorem terminalEnginesNeverChange : Obligations.TerminalEnginesNeverChange := by
  intro s t j e h he hterm
  obtain ⟨i, -, hi⟩ := step_stepAs h
  obtain ⟨f, f', ls', hf, hr, -, rfl⟩ := State.stepAs_move hi
  have hji : j ≠ i := by
    rintro rfl
    obtain rfl : f = e := Option.some.inj (hf.symm.trans he)
    exact hterm hr
  exact (State.engine?_moved hf f' ls' j).trans ((if_neg hji).trans he)

/-- The code 1 is that of the reserved kind alone (R170, R171). -/
theorem Engine.fkind_eq_one_iff (e : Engine) : e.fkind = 1 ↔ ∃ a, e.run = .faulted .decodeFault a := by
  unfold Engine.fkind
  cases e.run with
  | faulted k a => cases k <;> simp [FaultKind.code]
  | _ => simp

/-- A move does not touch the run state, or it records a fault kind other than the reserved one. -/
theorem Move.fkind_ne_one {ls ls' : List Link} {e e' : Engine} (h : Move ls e e' ls') (hr : e.run = .running) : e'.fkind ≠ 1 := by
  rw [ne_eq, Engine.fkind_eq_one_iff]
  rintro ⟨a, ha⟩
  cases h with
  | stop r _ hf => exact (hf _ a ha).2 rfl
  | _ => exact nomatch hr.symm.trans ha

/-- Settles O50: the engine that steps makes one move, and every other engine keeps its record. -/
theorem reservedFaultCodeNeverWritten : Obligations.ReservedFaultCodeNeverWritten := by
  intro s t h hs j f hf
  obtain ⟨i, -, hi⟩ := step_stepAs h
  obtain ⟨e, e', ls', he, hr, hm, rfl⟩ := State.stepAs_move hi
  rw [State.engine?_moved he] at hf
  split at hf
  · cases hf
    exact hm.fkind_ne_one hr
  · exact hs j f hf

/-! ### Which engine steps, and when none does -/

/-- In a rising list, the first element from one of its elements on is that element. -/
theorem find?_ge_of_mem_rising {is : List Nat} (hrising : is.Pairwise (· < ·)) {i : Nat} (hi : i ∈ is) :
    is.find? (fun k => i ≤ k) = some i := by
  induction is with
  | nil => cases hi
  | cons k ks ih =>
    obtain ⟨hk, hks⟩ := List.pairwise_cons.1 hrising
    obtain rfl | hi := List.mem_cons.1 hi
    · simp
    · rw [List.find?_cons_of_neg (by simpa using hk i hi)]
      exact ih hks hi

/-- A choice that names an engine that may step selects it (log 4). -/
theorem State.pick?_of_choice {s : State} {i : Nat} (hc : s.choice = i) (hi : s.enabled i = true) : s.pick? = some i := by
  have hmem : i ∈ s.enabledEngines := (s.mem_enabledEngines i).2 hi
  have hfind := find?_ge_of_mem_rising s.enabledEngines_rising hmem
  unfold State.pick?
  cases hes : s.enabledEngines with
  | nil => simp [hes] at hmem
  | cons j js =>
    rw [hes] at hmem hfind
    cases js with
    | nil => exact congrArg some (List.mem_singleton.1 hmem).symm
    | cons k ks => simp only [hc, hfind]

theorem State.pick?_eq_none_iff (s : State) : s.pick? = none ↔ ∀ i, s.enabled i = false := by
  simp only [State.pick?_eq_none, List.eq_nil_iff_forall_not_mem, State.mem_enabledEngines, Bool.not_eq_true]

/-- Settles O34: the choice is made among the engines that may step, and can name any of them. -/
theorem pickChoosesAnyEnabled : Obligations.PickChoosesAnyEnabled :=
  ⟨fun s i h => (s.mem_enabledEngines i).1 (State.pick?_mem h), State.pick?_eq_none_iff, fun _ _ _ h => State.pick?_of_choice rfl h⟩

/-- An engine that may step is RUNNING, so the run has not ended (R218). -/
theorem State.enabled_of_ended {s : State} (h : s.ended = true) (i : Nat) : s.enabled i = false := by
  rw [Bool.eq_false_iff, ne_eq, State.enabled_iff]
  rintro ⟨e, he, hr, -⟩
  have hterm : e.terminal = true := List.all_eq_true.1 h e (List.mem_of_getElem? he)
  simp [Engine.terminal, hr] at hterm

theorem step_of_no_enabled {s : State} (h : ∀ i, s.enabled i = false) : step s = .fault s.idleFault := by
  simp only [step, State.systemStep, s.pick?_eq_none_iff.2 h]

/-- Settles O35: with no engine to choose the step is one of the two stops, and a chosen engine does step. -/
theorem stopsOnlyWhenEndedOrStuck : Obligations.StopsOnlyWhenEndedOrStuck := by
  intro s hinv
  refine ⟨fun hend => ?ended, fun ⟨hend, hidle⟩ => ?stuck, fun hend hstuck => ?steps⟩
  case ended => rw [step_of_no_enabled (State.enabled_of_ended hend), State.idleFault, if_pos hend]
  case stuck => simp [step_of_no_enabled hidle, State.idleFault, hend]
  case steps =>
    have hpick : s.pick? ≠ none := fun hnone => hstuck ⟨hend, s.pick?_eq_none_iff.1 hnone⟩
    obtain ⟨i, hi⟩ := Option.ne_none_iff_exists'.1 hpick
    have hen : s.chosen.enabled i = true := (s.mem_enabledEngines i).1 (State.pick?_mem hi)
    obtain ⟨t, ht⟩ := enabledEngineSteps s.chosen i hinv.chosen hen
    exact ⟨t, by simp only [step, State.systemStep, hi, ht]⟩

/-! ### The steps of two engines commute -/

/-- Two lists of links that look the same to an engine do not differ in whether it stalls. -/
theorem LooksSame.stalls_eq_false {e : Engine} {ls ls2 : List Link} (h : LooksSame e ls ls2) (hs : e.stalls ls = false) :
    e.stalls ls2 = false := by
  rw [Bool.eq_false_iff] at hs ⊢
  refine fun hs2 => hs (Engine.stalls_iff_link.2 ?_)
  obtain ⟨dst, k, l2, hf, hd, hp, hk, hl2, hq2, hc2⟩ := Engine.stalls_iff_link.1 hs2
  obtain ⟨-, hnone⟩ | ⟨l, m, hl, hm, hlook⟩ := h.1 dst hf hd hp k hk
  · simp [hnone] at hl2
  · obtain rfl : l2 = m := Option.some.inj (hl2.symm.trans hm)
    obtain ⟨v, r, r2, -, hq⟩ | ⟨hq, -, hc⟩ := hlook
    · simp [hq] at hq2
    · exact ⟨dst, k, l, hf, hd, hp, hk, hl, hq, hc ▸ hc2⟩

/-- An engine that does not read a link can only add words behind those that wait in it. -/
theorem LinkOp.effect_q_of_not_reader {op : LinkOp} {e : Engine} {ls : List Link} {k : Nat} (l : Link) (ho : op.Allowed e ls)
    (hk : e.source ≠ .link k) : ∃ more, (op.effect k l).q = l.q ++ more := by
  cases op with
  | keep => exact ⟨[], (List.append_nil _).symm⟩
  | pop j =>
    have hjk : j ≠ k := by rintro rfl; exact hk ho.1
    exact ⟨[], by simp [LinkOp.effect, hjk]⟩
  | push j v =>
    by_cases hjk : j = k
    · exact ⟨[v], by simp [LinkOp.effect, hjk]⟩
    · exact ⟨[], by simp [LinkOp.effect, hjk]⟩
  | close j => exact ⟨[], by simp only [LinkOp.effect]; split <;> simp⟩

/-- What one RUNNING engine does to the links does not show to the next step of another that may step. A word that waits for the other
stays the first; and where none waits the link is closed, so by closure its writer is not RUNNING. -/
theorem State.Inv.looksSame {s : State} {i j : Nat} {e f : Engine} {op : LinkOp} (h : s.Inv) (hij : i ≠ j)
    (he : s.engine? i = some e) (hr : e.run = .running) (hf : s.engine? j = some f) (hs : f.stalls s.links = false)
    (ho : op.Allowed e s.links) : LooksSame f s.links (op.on s.links) := by
  have after {k : Nat} {l : Link} (hl : s.links[k]? = some l) : (op.on s.links)[k]? = some (op.effect k l) := by
    rw [LinkOp.get_on, hl]
    rfl
  refine ⟨fun dst hfetch hd hp k hk => .inr ?_, fun k hk => .inr ?_⟩
  · obtain ⟨l, hl⟩ : ∃ l, s.links[k]? = some l := ⟨_, List.getElem?_eq_getElem (h.wired.sourceLink j f k hf hk)⟩
    have hreader : e.source ≠ .link k := fun hek => hij (h.wired.oneReader i j e f k he hf hek hk)
    refine ⟨l, _, hl, after hl, ?_⟩
    cases hq : l.q with
    | cons v r =>
      obtain ⟨more, hmore⟩ := LinkOp.effect_q_of_not_reader l ho hreader
      exact .inl ⟨v, r, r ++ more, rfl, by rw [hmore, hq]; rfl⟩
    | nil =>
      have hclosed : l.closed = true := by
        by_contra hopen
        exact Bool.eq_false_iff.1 hs (Engine.stalls_iff_link.2 ⟨dst, k, l, hfetch, hd, hp, hk, hl, hq, Bool.eq_false_iff.2 hopen⟩)
      have hwriter : e.sink ≠ .link k := fun hek => (h.closure i e k l he hek hl).1 hclosed hr
      rw [op.effect_other e s.links k l ho hreader hwriter]
      exact .inr ⟨rfl, hq, rfl⟩
  · have hl := List.getElem?_eq_getElem (h.wired.sinkLink j f k hf hk)
    exact ⟨_, _, hl, after hl⟩

/-- On links that look the same to it an engine becomes the same, and does one and the same operation to both. -/
theorem Engine.stepped_of_looksSame {e e' : Engine} {ls ls2 ls' : List Link} (hc : LooksSame e ls ls2)
    (h : e.stepped ls = some (e', ls')) :
    ∃ op : LinkOp, op.Allowed e ls ∧ ls' = op.on ls ∧ e.stepped ls2 = some (e', op.on ls2) := by
  obtain ⟨hnone, -⟩ | ⟨_, op, hop, hop2, ho⟩ := e.stepsAlike ls ls2 hc
  · rw [hnone] at h; cases h
  · rw [hop] at h; cases h
    exact ⟨op, ho, rfl, hop2⟩

theorem State.stepAs_of_stepped {s : State} {i : Nat} {e e' : Engine} {ls' : List Link} (he : s.engine? i = some e)
    (hr : e.run = .running) (h : e.stepped s.links = some (e', ls')) :
    s.stepAs i = .next (({ s with cur := i } : State).moved e' ls') := by
  rw [State.stepAs_answer he hr, h]
  rfl

/-- Settles O57: the step of either engine does not show to the other, and what the two do to the links commutes. -/
theorem engineStepsCommute : Obligations.EngineStepsCommute := by
  intro s t u i j hinv hij hi hj ht hu
  obtain ⟨e, he, hre, hse⟩ := (s.enabled_iff i).1 hi
  obtain ⟨f, hf, hrf, hsf⟩ := (s.enabled_iff j).1 hj
  obtain ⟨e₀, e', lse, he₀, -, hstepe, rfl⟩ := State.stepAs_eq_next ht
  obtain rfl : e = e₀ := Option.some.inj (he.symm.trans he₀)
  obtain ⟨f₀, f', lsf, hf₀, -, hstepf, rfl⟩ := State.stepAs_eq_next hu
  obtain rfl : f = f₀ := Option.some.inj (hf.symm.trans hf₀)
  have hlookf : LooksSame f s.links lse := by
    obtain ⟨a, ha, rfl⟩ := Engine.stepped_linkOp hstepe
    exact hinv.looksSame hij he hre hf hsf ha
  have hlooke : LooksSame e s.links lsf := by
    obtain ⟨b, hb, rfl⟩ := Engine.stepped_linkOp hstepf
    exact hinv.looksSame hij.symm hf hrf he hse hb
  obtain ⟨a, ha, rfl, hstepe'⟩ := Engine.stepped_of_looksSame hlooke hstepe
  obtain ⟨b, hb, rfl, hstepf'⟩ := Engine.stepped_of_looksSame hlookf hstepf
  have hft : (({ s with cur := i } : State).moved e' (a.on s.links)).engine? j = some f := by
    rw [State.engine?_moved he, if_neg hij.symm, hf]
  have heu : (({ s with cur := j } : State).moved f' (b.on s.links)).engine? i = some e := by
    rw [State.engine?_moved hf, if_neg hij, he]
  refine ⟨(State.enabled_iff _ j).2 ⟨f, hft, hrf, hlookf.stalls_eq_false hsf⟩,
    (State.enabled_iff _ i).2 ⟨e, heu, hre, hlooke.stalls_eq_false hse⟩, _, _,
    State.stepAs_of_stepped hft hrf hstepf', State.stepAs_of_stepped heu hre hstepe', ?engines, ?links, rfl⟩
  case engines => exact List.set_comm _ _ hij.symm
  case links =>
    exact LinkOp.on_comm ha hb (fun k hk hk' => hij (hinv.wired.oneReader i j e f k he hf hk hk'))
      fun k hk hk' => hij (hinv.wired.oneWriter i j e f k he hf hk hk')

/-! ### The outcome does not depend on the schedule -/

theorem State.SameMachine.refl (s : State) : s.SameMachine s := ⟨rfl, rfl, rfl⟩

theorem State.SameMachine.symm {s t : State} (h : s.SameMachine t) : t.SameMachine s := ⟨h.1.symm, h.2.1.symm, h.2.2.symm⟩

theorem State.SameMachine.trans {s t u : State} (h : s.SameMachine t) (h' : t.SameMachine u) : s.SameMachine u :=
  ⟨h'.1.trans h.1, h'.2.1.trans h.2.1, h'.2.2.trans h.2.2⟩

section
variable {s s' : State} (h : s.SameMachine s')
include h

theorem State.SameMachine.engine? (i : Nat) : s'.engine? i = s.engine? i := congrArg (·[i]?) h.1

/-- Whether an engine may step does not depend on the model's own fields. -/
theorem State.SameMachine.enabled (i : Nat) : s'.enabled i = s.enabled i := by
  simp only [State.enabled, h.engine? i, h.2.1]

/-- What an engine's step does to the machine does not depend on the model's own fields. -/
theorem State.SameMachine.stepAs {t : State} {i : Nat} (hst : s.stepAs i = .next t) :
    ∃ t', s'.stepAs i = .next t' ∧ t.SameMachine t' := by
  obtain ⟨e, e', ls', he, hr, hs, rfl⟩ := State.stepAs_eq_next hst
  refine ⟨_, State.stepAs_of_stepped ((h.engine? i).trans he) hr (h.2.1 ▸ hs), ?_, rfl, h.2.2⟩
  exact congrArg (·.set i e') h.1

end

theorem State.SameMachine.runs {s s' t : State} {n : Nat} (h : s.SameMachine s') (hrun : State.Runs n s t) :
    ∃ t', State.Runs n s' t' ∧ t.SameMachine t' := by
  induction hrun generalizing s' with
  | refl s => exact ⟨s', .refl s', h⟩
  | step i en st _ ih =>
    obtain ⟨_, st', hsame⟩ := h.stepAs st
    obtain ⟨t', hrun', hend⟩ := ih hsame
    exact ⟨t', .step i ((h.enabled i).trans en) st' hrun', hend⟩

/-- An engine that may step must step before the run is over, and it may as well step first: its step commutes with every step that
some interleaving takes before it. -/
theorem State.Inv.runs_step_first {s t u : State} {n i : Nat} (h : s.Inv) (hrun : State.Runs n s t)
    (hend : ∀ j, t.enabled j = false) (en : s.enabled i = true) (st : s.stepAs i = .next u) :
    ∃ m v, n = m + 1 ∧ State.Runs m u v ∧ t.SameMachine v := by
  induction hrun generalizing u with
  | refl s => simp [hend i] at en
  | @step n s s₁ t j en₁ st₁ hrun ih =>
    obtain rfl | hij := eq_or_ne i j
    · obtain rfl : s₁ = u := by simpa [st₁] using st
      exact ⟨n, t, rfl, hrun, .refl t⟩
    · obtain ⟨enu, en₁', v, v', hv, hv', hsame⟩ := engineStepsCommute s u s₁ i j h hij en en₁ st st₁
      obtain ⟨m, w, rfl, hrunw, hw⟩ := ih (h.stepAs st₁) hend en₁' hv'
      obtain ⟨w', hrunw', hw'⟩ := hsame.symm.runs hrunw
      exact ⟨m + 1, w', rfl, .step j enu hv hrunw', hw.trans hw'⟩

/-- Settles O58: along any interleaving, each step is one that the run to the end can be made to begin with. -/
theorem outcomeIndependentOfSchedule : Obligations.OutcomeIndependentOfSchedule := by
  intro s t u n m hinv hrun hend hrunu
  induction hrunu generalizing t n with
  | refl s => exact ⟨Nat.zero_le n, t, hrun, .refl t⟩
  | step i en st _ ih =>
    obtain ⟨n, v, rfl, hrunv, hv⟩ := hinv.runs_step_first hrun hend en st
    obtain ⟨hle, w, hrunw, hw⟩ := ih v n (hinv.stepAs st) hrunv fun j => (hv.enabled j).trans (hend j)
    exact ⟨Nat.succ_le_succ hle, w, by rwa [Nat.add_sub_add_right], hv.trans hw⟩

end Sys2Proof.Machine
end

section
/-! SUPPORT. The launch states of spec/60_exceptions.md and spec/70_reset_and_hazards.md: the wiring and the seed of a pipeline (R190,
R211, R213 to R215), and that every launch state meets the invariant (R190, R212, R213). -/

namespace Sys2Proof.Machine

/-! ### What a launch that succeeds answers -/

/-- The launch state of a single engine with these words (R212). -/
def State.single (ws ibuf : List Word) (phase : Option Word) (debug : Bool) : State where
  engines := [Engine.launch ws 0 .buffer .buffer phase ibuf debug]
  links := []
  topology := .single
  cur := 0
  sched := []
  picks := 0

theorem State.launchSingle?_eq_some {prog : List Int} {ibuf : List Word} {phase : Option Word} {debug : Bool} {s : State} :
    State.launchSingle? prog ibuf phase debug = some s ↔
      ∃ ws, programWords? prog = some ws ∧ State.single ws ibuf phase debug = s := by
  unfold State.launchSingle?
  cases programWords? prog with
  | none => simp
  | some ws => simp [State.single]

/-- The launch state of a pipeline with these words and one engine for each phase (R213). -/
def State.pipeline (ws phases : List Word) (feedback : Bool) (debugs : List Bool) : State where
  engines := launchEngines ws phases.length feedback debugs 0 phases
  links := launchLinks phases.length feedback
  topology := if feedback then .feedback else .linear
  cur := 0
  sched := []
  picks := 0

theorem State.launchPipeline?_eq_some {prog : List Int} {phases : List Word} {feedback : Bool} {debugs : List Bool} {s : State} :
    State.launchPipeline? prog phases feedback debugs = some s ↔
      phases ≠ [] ∧ ∃ ws, programWords? prog = some ws ∧ State.pipeline ws phases feedback debugs = s := by
  unfold State.launchPipeline?
  cases phases with
  | nil => simp
  | cons p ps =>
    cases programWords? prog with
    | none => simp
    | some ws => simp [State.pipeline]

/-! ### The wiring of a pipeline (R190) -/

theorem State.pipeline_engine? (ws phases : List Word) (feedback : Bool) (debugs : List Bool) (i : Nat) :
    (State.pipeline ws phases feedback debugs).engine? i = phases[i]?.map fun p =>
      Engine.launch ws i (.link i) (.link (outLink phases.length feedback i)) (some p) [] (debugs.getD i false) :=
  (launchEngines_get ws phases.length feedback debugs 0 phases i).trans (by simp only [Nat.zero_add])

theorem outLink_eq (n : Nat) (feedback : Bool) (i : Nat) :
    outLink n feedback i = if feedback = true ∧ i + 1 = n then 0 else i + 1 := by
  simp [outLink]

/-- No two engines of a pipeline write the same link. -/
theorem outLink_inj {n i j : Nat} {feedback : Bool} (h : outLink n feedback i = outLink n feedback j) : i = j := by
  rw [outLink_eq, outLink_eq] at h
  split at h <;> split at h <;> omega

/-! ### The links of a pipeline at launch (R190, R214, R215) -/

theorem launchLinks_length {n : Nat} (hn : 0 < n) (feedback : Bool) :
    (launchLinks n feedback).length = if feedback then n else n + 1 := by
  cases feedback with
  | false => simp [launchLinks]
  | true => simp [launchLinks]; omega

theorem outLink_lt_length {n i : Nat} (hi : i < n) (feedback : Bool) :
    outLink n feedback i < (launchLinks n feedback).length := by
  rw [launchLinks_length (Nat.zero_lt_of_lt hi), outLink_eq]
  cases feedback with
  | false => simpa using hi
  | true => simp only [true_and, if_true]; split <;> omega

theorem launchLinks_get_of_pos {n k : Nat} {feedback : Bool} (h0 : 0 < k) (hk : k < (launchLinks n feedback).length) :
    (launchLinks n feedback)[k]? = some Link.empty := by
  cases k with
  | zero => exact absurd h0 (lt_irrefl 0)
  | succ k =>
    have hk : k < if feedback then n - 1 else n := by simpa [launchLinks] using hk
    exact List.getElem?_replicate_of_lt hk

/-- The link an engine writes is open at launch: the one link that is closed, `L[0]` of a linear pipeline, has no writer. -/
theorem closed_of_launchLinks_outLink {n i : Nat} {feedback : Bool} {l : Link} (hi : i < n)
    (hl : (launchLinks n feedback)[outLink n feedback i]? = some l) : l.closed = false := by
  by_cases h : feedback = true ∧ i + 1 = n
  · obtain ⟨rfl, -⟩ := id h
    rw [outLink_eq, if_pos h] at hl
    obtain rfl : Link.seeded true = l := Option.some.inj hl
    rfl
  · have h0 : 0 < outLink n feedback i := by rw [outLink_eq, if_neg h]; exact i.succ_pos
    obtain rfl : Link.empty = l := Option.some.inj ((launchLinks_get_of_pos h0 (outLink_lt_length hi feedback)).symm.trans hl)
    rfl

theorem Link.empty_ok : Link.empty.Ok := ⟨le_refl 0, by simp [Link.empty], fun h => absurd rfl h⟩

theorem Link.seeded_ok (feedback : Bool) : (Link.seeded feedback).Ok := by
  obtain ⟨hq, hlast, hlastQ⟩ := Link.empty_ok.write (v := seedWord)
  exact ⟨hq, hlast, hlastQ⟩

theorem launchLinks_ok {n k : Nat} {feedback : Bool} {l : Link} (hl : (launchLinks n feedback)[k]? = some l) : l.Ok := by
  obtain rfl | hmem := List.mem_cons.1 (List.mem_of_getElem? hl)
  · exact Link.seeded_ok feedback
  · rw [List.eq_of_mem_replicate hmem]
    exact Link.empty_ok

/-! ### Every launch state meets the invariant -/

theorem Engine.launch_ok {ws : List Word} (h : ws.length ≤ Config.maxMemSize) (vmid : Nat) (source : Source) (sink : Sink)
    (phase : Option Word) (ibuf : List Word) (debug : Bool) : (Engine.launch ws vmid source sink phase ibuf debug).Ok where
  memWf := Memory.load_wf ws
  memSize := h
  iposLe := Nat.zero_le _
  iposUnused _ := rfl
  obufUnused _ := rfl
  traceOff _ := rfl
  faultRecord _ _ hr := nomatch hr

theorem State.single_inv {ws : List Word} (h : ws.length ≤ Config.maxMemSize) (ibuf : List Word) (phase : Option Word)
    (debug : Bool) : (State.single ws ibuf phase debug).Inv := by
  have only {i : Nat} {e : Engine} (he : (State.single ws ibuf phase debug).engine? i = some e) :
      i = 0 ∧ e = Engine.launch ws 0 .buffer .buffer phase ibuf debug := by
    obtain ⟨hi, rfl⟩ := List.getElem?_eq_some_iff.1 he
    obtain rfl : i = 0 := Nat.lt_one_iff.1 hi
    exact ⟨rfl, rfl⟩
  constructor
  case engines =>
    intro i e he
    obtain ⟨-, rfl⟩ := only he
    exact Engine.launch_ok h ..
  case links => exact fun k l hl => nomatch hl
  case closure => exact fun i e k l _ _ hl => nomatch hl
  case wired =>
    constructor
    case vmid => intro i e he; obtain ⟨rfl, rfl⟩ := only he; rfl
    case sourceLink => intro i e k he hk; obtain ⟨-, rfl⟩ := only he; cases hk
    case sinkLink => intro i e k he hk; obtain ⟨-, rfl⟩ := only he; cases hk
    case oneReader => exact fun i j e f k he hf _ _ => (only he).1.trans (only hf).1.symm
    case oneWriter => exact fun i j e f k he hf _ _ => (only he).1.trans (only hf).1.symm

/-- What an engine of a pipeline is wired to at launch. -/
theorem State.engine_of_pipeline {ws phases : List Word} {feedback : Bool} {debugs : List Bool} {i : Nat} {e : Engine}
    (he : (State.pipeline ws phases feedback debugs).engine? i = some e) :
    i < phases.length ∧ e.vmid = i ∧ e.source = .link i ∧ e.sink = .link (outLink phases.length feedback i) ∧
      e.run = .running := by
  rw [State.pipeline_engine?] at he
  obtain ⟨p, hp, rfl⟩ := Option.map_eq_some_iff.1 he
  exact ⟨(List.getElem?_eq_some_iff.1 hp).1, rfl, rfl, rfl, rfl⟩

theorem State.pipeline_wired (ws phases : List Word) (feedback : Bool) (debugs : List Bool) :
    (State.pipeline ws phases feedback debugs).Wired := by
  constructor
  case vmid => exact fun i e he => (State.engine_of_pipeline he).2.1
  case sourceLink =>
    intro i e k he hk
    obtain ⟨hi, -, hs, -, -⟩ := State.engine_of_pipeline he
    obtain rfl : i = k := Source.link.inj (hs.symm.trans hk)
    have hlen : i < if feedback then phases.length else phases.length + 1 := by split <;> omega
    exact (launchLinks_length (Nat.zero_lt_of_lt hi) feedback).symm ▸ hlen
  case sinkLink =>
    intro i e k he hk
    obtain ⟨hi, -, -, hs, -⟩ := State.engine_of_pipeline he
    obtain rfl := Sink.link.inj (hs.symm.trans hk)
    exact outLink_lt_length hi feedback
  case oneReader =>
    intro i j e f k he hf hk hk'
    obtain ⟨-, -, hs, -, -⟩ := State.engine_of_pipeline he
    obtain ⟨-, -, hs', -, -⟩ := State.engine_of_pipeline hf
    exact Source.link.inj (hs.symm.trans (hk.trans (hk'.symm.trans hs')))
  case oneWriter =>
    intro i j e f k he hf hk hk'
    obtain ⟨-, -, -, hs, -⟩ := State.engine_of_pipeline he
    obtain ⟨-, -, -, hs', -⟩ := State.engine_of_pipeline hf
    exact outLink_inj (Sink.link.inj (hs.symm.trans (hk.trans (hk'.symm.trans hs'))))

theorem State.pipeline_inv {ws : List Word} (h : ws.length ≤ Config.maxMemSize) (phases : List Word) (feedback : Bool)
    (debugs : List Bool) : (State.pipeline ws phases feedback debugs).Inv := by
  refine ⟨fun i e he => ?engines, fun k l hl => launchLinks_ok hl, State.pipeline_wired ws phases feedback debugs,
    fun i e k l he hk hl => ?closure⟩
  case engines =>
    rw [State.pipeline_engine?] at he
    obtain ⟨p, -, rfl⟩ := Option.map_eq_some_iff.1 he
    exact Engine.launch_ok h ..
  case closure =>
    obtain ⟨hi, -, -, hs, hr⟩ := State.engine_of_pipeline he
    obtain rfl := Sink.link.inj (hs.symm.trans hk)
    simp [closed_of_launchLinks_outLink hi hl, hr]

/-- Settles O41: every engine starts RUNNING with an untouched image of a legal size, wired so that it alone reads its input link and
it alone writes its output link, which is open. -/
theorem launchesMeetInv : Obligations.LaunchesMeetInv := by
  refine ⟨fun prog ibuf phase debug s hs => ?single, fun prog phases feedback debugs s hs => ?pipeline⟩
  case single =>
    obtain ⟨ws, hws, rfl⟩ := State.launchSingle?_eq_some.1 hs
    exact State.single_inv (programWords?_eq_some.1 hws).2 ibuf phase debug
  case pipeline =>
    obtain ⟨-, ws, hws, rfl⟩ := State.launchPipeline?_eq_some.1 hs
    exact State.pipeline_inv (programWords?_eq_some.1 hws).2 phases feedback debugs

/-! ### The launch state of a pipeline -/

/-- A loaded image holds the integers of the Program (R211). -/
theorem Memory.toInt_peek_load {prog : List Int} {ws : List Word} (hws : programWords? prog = some ws) :
    (Memory.load ws).size = prog.length ∧ ∀ a z, prog[a]? = some z → ((Memory.load ws).peek a).toInt = z := by
  obtain ⟨rfl, -⟩ := programWords?_eq_some.1 hws
  refine ⟨List.length_map _ |>.symm, fun a z hz => ?_⟩
  rw [List.getElem?_map] at hz
  obtain ⟨w, hw, rfl⟩ := Option.map_eq_some_iff.1 hz
  rw [Memory.peek_load hw]

/-- Settles O54: the engines and the links of the launch, one by one. -/
theorem launchPipelineState : Obligations.LaunchPipelineState := by
  intro prog phases feedback debugs s hs
  obtain ⟨hne, ws, hws, rfl⟩ := State.launchPipeline?_eq_some.1 hs
  refine ⟨rfl, launchEngines_length ws _ feedback debugs 0 phases,
    launchLinks_length (List.length_pos_of_ne_nil hne) feedback, rfl, fun k h0 hk => launchLinks_get_of_pos h0 hk,
    fun i p hp => ?_⟩
  obtain ⟨hsize, hwords⟩ := Memory.toInt_peek_load hws
  refine ⟨_, (State.pipeline_engine? ws phases feedback debugs i).trans (congrArg (Option.map _) hp), hsize, hwords,
    rfl, rfl, rfl, rfl, rfl, rfl, congrArg Sink.link (outLink_eq phases.length feedback i), rfl, rfl, rfl, rfl⟩

end Sys2Proof.Machine
end

section
/-! SUPPORT. The statements of spec/70_reset_and_hazards.md: the state after reset (R210), the launch of a single engine (R211, R212),
and the read-out of the result (R218 to R221). -/

namespace Sys2Proof.Machine

/-! ### Reset and the launch of a single engine -/

/-- Settles O38: reset is one of the launches (log 3). -/
theorem resetMeetsInv : Obligations.ResetMeetsInv :=
  launchesMeetInv.1 [] [] none false State.reset resetValues.1

theorem Engine.phase_of_launch (ws : List Word) (vmid : Nat) (source : Source) (sink : Sink) (phase : Option Word)
    (ibuf : List Word) (debug : Bool) :
    (Engine.launch ws vmid source sink phase ibuf debug).phaseEn = phase.isSome ∧
      (Engine.launch ws vmid source sink phase ibuf debug).phaseValue = phase ∧
      (Engine.launch ws vmid source sink phase ibuf debug).phasePending = phase.isSome := by
  cases phase with
  | none => exact ⟨rfl, rfl, rfl⟩
  | some v => exact ⟨rfl, rfl, rfl⟩

/-- Settles O53: the one engine of the launch, field by field; its memory holds the Program. -/
theorem launchSingleState : Obligations.LaunchSingleState := by
  intro prog ibuf phase debug s hs
  obtain ⟨ws, hws, rfl⟩ := State.launchSingle?_eq_some.1 hs
  obtain ⟨hsize, hwords⟩ := Memory.toInt_peek_load hws
  obtain ⟨hen, hvalue, hpending⟩ := Engine.phase_of_launch ws 0 .buffer .buffer phase ibuf debug
  exact ⟨rfl, rfl, rfl, _, rfl, hsize, hwords, rfl, rfl, rfl, rfl, rfl, rfl, rfl, rfl, rfl, hen, hvalue, hpending, rfl, rfl⟩

/-! ### The end of a run and its fault records (R218, R221) -/

theorem State.mem_engines {s : State} {e : Engine} : e ∈ s.engines ↔ ∃ i, s.engine? i = some e := List.mem_iff_getElem?

theorem State.ended_iff (s : State) : s.ended = true ↔ ∀ i e, s.engine? i = some e → e.run ≠ .running := by
  simp only [State.ended, List.all_eq_true, State.mem_engines, Engine.terminal, decide_eq_true_eq]
  exact ⟨fun h i e he => h e ⟨i, he⟩, fun h e ⟨i, he⟩ => h i e he⟩

theorem Engine.fkind_ne_zero_iff (e : Engine) : e.fkind ≠ 0 ↔ ∃ k a, e.run = .faulted k a := by
  unfold Engine.fkind
  cases e.run with
  | faulted k a => cases k <;> simp [FaultKind.code]
  | _ => simp

theorem Engine.faultRecord?_eq_some {e : Engine} {r : Nat × FaultKind × Word} :
    e.faultRecord? = some r ↔ ∃ k a, e.run = .faulted k a ∧ (e.vmid, k, a) = r := by
  unfold Engine.faultRecord?
  cases e.run <;> simp

theorem State.mem_faultRecords {s : State} {r : Nat × FaultKind × Word} :
    r ∈ s.faultRecords ↔ ∃ i e k a, s.engine? i = some e ∧ e.run = .faulted k a ∧ (e.vmid, k, a) = r := by
  simp only [State.faultRecords, List.mem_filterMap, State.mem_engines, Engine.faultRecord?_eq_some]
  constructor
  · rintro ⟨e, ⟨i, he⟩, k, a, hr⟩
    exact ⟨i, e, k, a, he, hr⟩
  · rintro ⟨i, e, k, a, he, hr⟩
    exact ⟨e, ⟨i, he⟩, k, a, hr⟩

theorem State.faultRecords_of_halted {s : State} (h : ∀ i e, s.engine? i = some e → e.run = .halted) : s.faultRecords = [] := by
  refine List.eq_nil_iff_forall_not_mem.2 fun r hr => ?_
  obtain ⟨i, e, k, a, he, hf, -⟩ := State.mem_faultRecords.1 hr
  exact nomatch (h i e he).symm.trans hf

/-! ### The result (R218 to R221) -/

/-- A run that has ended with records reports the one that `FIRST_FAULT` names, counted around the list (log 14). -/
theorem State.result_of_record {s : State} {n : Nat} {r : Nat × FaultKind × Word} (hend : s.ended = true)
    (hr : s.faultRecords[n % s.faultRecords.length]? = some r) : s.result n = .fault r.1 r.2.1 r.2.2 := by
  unfold State.result
  cases hrs : s.faultRecords with
  | nil => simp [hrs] at hr
  | cons q qs =>
    rw [hrs, List.length_cons] at hr
    simp [hend, hr]

theorem State.result_of_faulted {s : State} (n : Nat) (hend : s.ended = true) (hne : s.faultRecords ≠ []) :
    ∃ r ∈ s.faultRecords, s.result n = .fault r.1 r.2.1 r.2.2 := by
  have hn : n % s.faultRecords.length < s.faultRecords.length := Nat.mod_lt n (List.length_pos_of_ne_nil hne)
  exact ⟨_, List.getElem_mem hn, State.result_of_record hend (List.getElem?_eq_getElem hn)⟩

/-- Every record of a run that has ended is reported for some `FIRST_FAULT`: its place in the list. -/
theorem State.exists_result_of_mem {s : State} {r : Nat × FaultKind × Word} (hend : s.ended = true) (hr : r ∈ s.faultRecords) :
    ∃ m, s.result m = .fault r.1 r.2.1 r.2.2 := by
  obtain ⟨m, hm, rfl⟩ := List.mem_iff_getElem.1 hr
  refine ⟨m, State.result_of_record hend ?_⟩
  rw [Nat.mod_eq_of_lt hm, List.getElem?_eq_getElem hm]

theorem State.result_of_halted {s : State} (n : Nat) (hend : s.ended = true)
    (h : ∀ i e, s.engine? i = some e → e.run = .halted) : s.result n = s.successResult := by
  simp [State.result, hend, State.faultRecords_of_halted h]

/-- What the host reads from the result link of a pipeline that succeeded (R220). -/
def Link.result (l : Link) : RunResult :=
  match l.last with
  | some w => .value w
  | none => .noValue

theorem State.successResult_of_single {s : State} {e : Engine} (htop : s.topology = .single) (he : s.engine? 0 = some e) :
    s.successResult = .output e.obuf := by
  simp [State.successResult, htop, he]

theorem State.successResult_of_linear {s : State} {l : Link} (htop : s.topology = .linear)
    (hl : s.link? s.engines.length = some l) : s.successResult = l.result := by
  simp only [State.successResult, State.resultLink, htop, hl]
  rfl

theorem State.successResult_of_feedback {s : State} {l : Link} (htop : s.topology = .feedback) (hl : s.link? 0 = some l) :
    s.successResult = l.result := by
  simp only [State.successResult, State.resultLink, htop, hl]
  rfl

/-- Settles O56: the result is chosen by whether the run has ended, and then by whether there is a fault record. -/
theorem resultReadout : Obligations.ResultReadout := by
  intro s n
  refine ⟨s.ended_iff, fun hend => ?notEnded, fun hend ⟨i, e, he, hk⟩ => ?someFault, fun i e k a hend he hr => ?anyFault,
    fun hend hhalt => ?success⟩
  case notEnded => simp [State.result, hend]
  case someFault =>
    obtain ⟨k, a, hr⟩ := e.fkind_ne_zero_iff.1 hk
    have hmem : (e.vmid, k, a) ∈ s.faultRecords := State.mem_faultRecords.2 ⟨i, e, k, a, he, hr, rfl⟩
    obtain ⟨r, hmem', hres⟩ := State.result_of_faulted n hend (List.ne_nil_of_mem hmem)
    obtain ⟨j, f, k', a', hf, hr', rfl⟩ := State.mem_faultRecords.1 hmem'
    exact ⟨j, f, k', a', hf, hr', hres⟩
  case anyFault => exact State.exists_result_of_mem hend (State.mem_faultRecords.2 ⟨i, e, k, a, he, hr, rfl⟩)
  case success =>
    rw [State.result_of_halted n hend hhalt]
    exact ⟨fun _ htop he => State.successResult_of_single htop he, fun _ htop hl => State.successResult_of_linear htop hl,
      fun _ htop hl => State.successResult_of_feedback htop hl⟩

end Sys2Proof.Machine
end
